-- ==== Sys2Proof/Word.lean ====
section
/-! DEFINITION. The word types of the oscillator core (00_scope.md rules R5, R6, R10, R11; 30_encoding.md rule R60). -/

namespace Sys2Proof

/-- The 32-bit registers, operands and responses (`W = 32`, 00_scope.md rule R6; 10_state.md rule R32). -/
abbrev Word := BitVec 32

/-- One wavetable cell, a signed 8-bit sample (00_scope.md rule R9). -/
abbrev Byte := BitVec 8

/-- One command word `CMD[39:0]` (30_encoding.md rule R60). -/
abbrev CommandWord := BitVec 40

/-- `F_BITS`, the number of fractional bits of PHASE, PHASE_INC and the modulation operand (00_scope.md rule R5). -/
abbrev fBits : Nat := 16

end Sys2Proof
end

