-- ==== Sys2Proof/Syntax.lean ====
section
/-! DEFINITION. The two command ports and the eight commands (10_state.md rule R30; 30_encoding.md rules R61, R62). -/

namespace Sys2Proof

/-- The command ports: P, the producer context, and C, the configuration context (10_state.md rule R30). -/
inductive Port where
  | P
  | C
deriving DecidableEq, Repr, Inhabited

/-- One command as a port issues it: a row of `spec/opcode_table.json`, its 32-bit operand where the row has one
(30_encoding.md rule R61), and the port that issues it. The port is no field of the word: it is the wire the word
comes on (R65 `decode(port, CMD)`; R66, a line is a port and a command). DESIGN CHOICE, log entry 10. -/
inductive Instr where
  /-- NEXT, `0x01` (rule R81). -/
  | next (p : Port)
  /-- PHMOD, `0x02`; `m` is the signed Q15n16 modulation proportion (rule R82). -/
  | phmod (p : Port) (m : Word)
  /-- ATINDEX, `0x03`; `i` is the unsigned table index (rule R83). -/
  | atindex (p : Port) (i : Word)
  /-- SETFREQ.N8, `0x10`; `f` is the unsigned Q24n8 frequency (rule R102). -/
  | setfreqN8 (p : Port) (f : Word)
  /-- SETFREQ.U, `0x11`; `f` is the unsigned frequency in whole Hz (rule R103). -/
  | setfreqU (p : Port) (f : Word)
  /-- SETFREQ.F, `0x12`; `f` is a binary32 bit pattern (rule R104). -/
  | setfreqF (p : Port) (f : Word)
  /-- PHINC, `0x13`; `f` is the unsigned frequency in whole Hz (rule R109). -/
  | phinc (p : Port) (f : Word)
  /-- SETINC, `0x14`; `v` is the raw Q16n16 increment (rule R110). -/
  | setinc (p : Port) (v : Word)
deriving DecidableEq, Repr

/-- The port that issues a command (10_state.md rule R30). -/
def Instr.port : Instr → Port
  | .next p => p
  | .phmod p _ => p
  | .atindex p _ => p
  | .setfreqN8 p _ => p
  | .setfreqU p _ => p
  | .setfreqF p _ => p
  | .phinc p _ => p
  | .setinc p _ => p

/-- The commands that begin with the phase advance of 40_sample_generation.md rule R80. -/
def Instr.advances : Instr → Bool
  | .next _ => true
  | .phmod _ _ => true
  | .atindex _ _ => false
  | .setfreqN8 _ _ => false
  | .setfreqU _ _ => false
  | .setfreqF _ _ => false
  | .phinc _ _ => false
  | .setinc _ _ => false

/-- The commands that store an increment through 41_frequency_control.md rule R101: the four writers of PHASE_INC
(10_state.md rule R23). -/
def Instr.writesInc : Instr → Bool
  | .next _ => false
  | .phmod _ _ => false
  | .atindex _ _ => false
  | .setfreqN8 _ _ => true
  | .setfreqU _ _ => true
  | .setfreqF _ _ => true
  | .phinc _ _ => false
  | .setinc _ _ => true

end Sys2Proof
end

