-- ==== Sys2Proof/WellFormed.lean ====
section
/-! DEFINITION. Which commands a port accepts (10_state.md rule R30). The operands need no check: every 32-bit pattern
is an operand of every row that has one (30_encoding.md rule R61). -/

namespace Sys2Proof

/-- NEXT and PHMOD are accepted on port P only, the other six commands on both ports (10_state.md rule R30). -/
def Instr.wellFormed : Instr → Bool
  | .next p => decide (p = .P)
  | .phmod p _ => decide (p = .P)
  | .atindex _ _ => true
  | .setfreqN8 _ _ => true
  | .setfreqU _ _ => true
  | .setfreqF _ _ => true
  | .phinc _ _ => true
  | .setinc _ _ => true

end Sys2Proof
end

