-- ==== Sys2Proof/Decode.lean ====
section
/-! DEFINITION. The command decoder and encoder (30_encoding.md rules R60 to R65). -/

namespace Sys2Proof

/-- `OP`, `CMD[39:32]` (rule R60). -/
def opField (w : CommandWord) : BitVec 8 := w.extractLsb' 32 8

/-- `OPERAND`, `CMD[31:0]` (rule R60), taken whole: no shift, scaling or extension (rule R61). -/
def operandField (w : CommandWord) : Word := w.extractLsb' 0 32

/-- What the decoder answers: a command, or one of the two refusals of rule R65. -/
inductive Decoded where
  | ok (i : Instr)
  | reservedEncoding
  | wrongPort
deriving DecidableEq, Repr

/-- NEXT and PHMOD on port C are refused for the port (rule R65). -/
def onProducerPort (p : Port) (i : Instr) : Decoded :=
  if p = .P then .ok i else .wrongPort

/-- The decoder, total on all words, in the check order of rule R65: the encoding first, then the port. -/
def decode (p : Port) (w : CommandWord) : Decoded :=
  match (opField w).toNat with
  | 0x01 => if operandField w ≠ 0 then .reservedEncoding else onProducerPort p (.next p)
  | 0x02 => onProducerPort p (.phmod p (operandField w))
  | 0x03 => .ok (.atindex p (operandField w))
  | 0x10 => .ok (.setfreqN8 p (operandField w))
  | 0x11 => .ok (.setfreqU p (operandField w))
  | 0x12 => .ok (.setfreqF p (operandField w))
  | 0x13 => .ok (.phinc p (operandField w))
  | 0x14 => .ok (.setinc p (operandField w))
  | _ => .reservedEncoding

/-- The opcode of a command (rule R62). -/
def opcodeOf : Instr → BitVec 8
  | .next _ => 0x01
  | .phmod _ _ => 0x02
  | .atindex _ _ => 0x03
  | .setfreqN8 _ _ => 0x10
  | .setfreqU _ _ => 0x11
  | .setfreqF _ _ => 0x12
  | .phinc _ _ => 0x13
  | .setinc _ _ => 0x14

/-- The operand of a command; NEXT's is 0 (rules R61, R63). -/
def operandOf : Instr → Word
  | .next _ => 0
  | .phmod _ m => m
  | .atindex _ i => i
  | .setfreqN8 _ f => f
  | .setfreqU _ f => f
  | .setfreqF _ f => f
  | .phinc _ f => f
  | .setinc _ v => v

/-- The word of a command, `{OP, OPERAND}` (rules R60, R62). The port is not in the word. -/
def encode (i : Instr) : CommandWord := opcodeOf i ++ operandOf i

/-- The command the decoder reads on port P, which accepts all eight, from a word whose bits are `w`; bits from `nbits`
up are 0, and a number that is no 40-bit word is no command (rule R60). -/
def decodeTableWord (nbits w : Nat) : Option Instr :=
  if w % 2 ^ nbits < 2 ^ 40 then
    match decode .P (BitVec.ofNat 40 (w % 2 ^ nbits)) with
    | .ok i => some i
    | .reservedEncoding => none
    | .wrongPort => none
  else none

end Sys2Proof
end

