-- ==== Sys2Proof/Machine/State.lean ====
section
/-! DEFINITION. The state of the oscillator core and what the host may still do to it (10_state.md; 70_reset_and_hazards.md
rules R150, R158), as plain data. -/

namespace Sys2Proof.Machine

/-- Bytes by offset: offsets strictly rising, and no cell equal to what an unlisted offset reads as
(`Memory.wf`, Machine/Ops.lean). -/
abbrev Memory := List Host.Cell

/-- The configuration `(k, r, TABLE)` of an instance (10_state.md rule R29). The spec takes it as a parameter of the
machine; it stands in the state because the host's interface takes no parameter and a second construction may bind
another (70_reset_and_hazards.md rule R151). DESIGN CHOICE, log entry 3. -/
structure Configuration where
  /-- `k` = `LOG2_L`; the table length is `L = 2^k` (00_scope.md rule R7). -/
  k : Nat
  /-- `r` = `UPDATE_RATE`, calls per second (00_scope.md rule R8). -/
  r : Nat
  /-- `TABLE`, the wavetable's bytes by offset (00_scope.md rule R9). -/
  table : Memory
deriving DecidableEq, Repr

/-- One command port (10_state.md rules R30, R31, R32). -/
structure PortState where
  /-- The command presented and not yet performed, at most one (rule R31). -/
  command : Option CommandWord
  /-- The responses returned since reset, oldest first: what a run is observed by (70_reset_and_hazards.md rule R158). -/
  responses : List Word
deriving DecidableEq, Repr

/-- One interaction of the host with the block (10_state.md rule R33). -/
inductive HostEvent where
  /-- The host presents a word on port P, on port C, or on both at once (rules R31, R33; 60_exceptions.md rule R135). -/
  | present (onP onC : Option CommandWord)
  /-- The host constructs the block again with `(k, r, TABLE)` (70_reset_and_hazards.md rules R150, R151). -/
  | construct (k r : Nat) (table : List Host.Cell)
deriving DecidableEq, Repr

structure State where
  /-- PHASE, the Q16n16 phase accumulator (10_state.md rule R21). -/
  phase : Word
  /-- PHASE_INC, the Q16n16 phase increment (10_state.md rule R23). -/
  phaseInc : Word
  /-- INC_SET, whether PHASE_INC holds a value (10_state.md rule R25). -/
  incSet : Bool
  /-- The configuration (10_state.md rule R29). -/
  cfg : Configuration
  /-- Port P, the producer context (10_state.md rule R30). -/
  portP : PortState
  /-- Port C, the configuration context (10_state.md rule R30). -/
  portC : PortState
  /-- The model's own: the host's remaining interactions, the next one first (log entry 6). -/
  host : List HostEvent
  /-- The model's own: how many free values have been drawn (log entry 9). -/
  draws : Nat
  /-- The model's own: which stream of free values the instance draws from, so that no two instances share a draw
  (60_exceptions.md rule R142; log entry 21). It is no identifier the block can read: it only selects the free values. -/
  stream : Nat
deriving DecidableEq, Repr

/-- Why the machine stops. -/
inductive Fault where
  /-- Raised by NEXT and PHMOD while INC_SET = 0: no increment has been written since reset (60_exceptions.md rule
  R132; 40_sample_generation.md rule R80; 90_conflicts.md C2). It is the spec's own model fault. Safe: hardware goes on
  with some value, and no claim can be proved through the stop. -/
  | incrementUnset
deriving DecidableEq, Repr

/-- Why an input has no meaning (60_exceptions.md rule R133). -/
inductive Refusal where
  /-- Raised by `exec`'s arm of a command that has no meaning yet; no arm raises it now. Safe. -/
  | notModelled (mnemonic : String)
  /-- Raised by a step whose presented word is reserved (30_encoding.md rules R63, R64). Safe: the spec gives the word
  no meaning. -/
  | reservedEncoding
  /-- Raised by a step, and by the meanings of NEXT and PHMOD, for NEXT or PHMOD on port C (10_state.md rule R30;
  30_encoding.md rule R65). Safe: the spec gives it no meaning. -/
  | wrongPort
  /-- Raised by a construction with `k` outside 0..16 or `r` outside 1..2^32 - 1 (70_reset_and_hazards.md rule R150).
  Safe: the spec has no instance for it. -/
  | invalidConfiguration
deriving DecidableEq, Repr

/-- An idle port: no command in progress, no response (10_state.md rule R34). -/
def PortState.idle : PortState := { command := none, responses := [] }

/-- The configuration State.reset is constructed with: `k = 8`, `r = 16384` (the spec's worked configuration) and a
table with nothing listed. The spec leaves all three to the host (10_state.md rule R34). DESIGN CHOICE, log entry 4. -/
def Configuration.atReset : Configuration := { k := 8, r := 16384, table := [] }

/-- The machine right after reset (10_state.md rule R34; 70_reset_and_hazards.md rule R150). PHASE_INC has no value
there; the field holds 0, which INC_SET = 0 keeps every command from reading. DESIGN CHOICE, log entry 1. -/
def State.reset : State :=
  { phase := 0
    phaseInc := 0
    incSet := false
    cfg := Configuration.atReset
    portP := PortState.idle
    portC := PortState.idle
    host := []
    draws := 0
    stream := 0 }

end Sys2Proof.Machine
end

