-- ==== Sys2Proof/Machine/Operands.lean ====
section
/-! DEFINITION. How a phase and an operand are read: the table index (00_scope.md rule R15; 40_sample_generation.md rules
R81 to R83), the modulated phase (rule R82), and the binary32 fields and value (30_encoding.md rule R61;
41_frequency_control.md rules R105, R106). -/

namespace Sys2Proof.Machine

/-- `index(p) = (p >> F_BITS) & (L - 1)` (00_scope.md rule R15). -/
def phaseIndex (k : Nat) (p : Word) : Nat := (p.toNat >>> fBits) &&& (2 ^ k - 1)

/-- ATINDEX's offset `i & (L - 1)` (40_sample_generation.md rule R83). -/
def maskedIndex (k : Nat) (i : Word) : Nat := i.toNat &&& (2 ^ k - 1)

/-- `q = (PHASE + m * L) mod 2^32`, with `m` the signed Q15n16 operand (40_sample_generation.md rule R82). -/
def modulatedPhase (k : Nat) (phase m : Word) : Word :=
  BitVec.ofInt 32 ((phase.toNat : Int) + m.toInt * (2 ^ k : Nat))

/-! ### binary32 (41_frequency_control.md rule R105) -/

/-- `s = F[31]`. -/
def floatSign (F : Word) : Bool := F.getLsbD 31

/-- `e = u(F[30:23])`. -/
def floatExponent (F : Word) : Nat := (F.extractLsb' 23 8).toNat

/-- `t = u(F[22:0])`. -/
def floatFraction (F : Word) : Nat := (F.extractLsb' 0 23).toNat

/-- `e = 255`: an infinity or a NaN. -/
def floatIsSpecial (F : Word) : Bool := decide (floatExponent F = 255)

/-- `|value(F)|` in units of `2^-150`, an exact integer: `t * 2` for a subnormal (`t * 2^-149`) and
`(2^23 + t) * 2^e` for a normal number (`(2^23 + t) * 2^(e - 150)`). -/
def floatScaledMagnitude (F : Word) : Nat :=
  if floatExponent F = 0 then floatFraction F * 2 else (2 ^ 23 + floatFraction F) * 2 ^ floatExponent F

/-- `value(F)` as rule R105 writes it, an exact rational; for the statements, which hold the meaning against it. -/
def floatValue (F : Word) : Rat :=
  let sign : Rat := if floatSign F then -1 else 1
  if floatExponent F = 0 then sign * (floatFraction F : Rat) * (2 : Rat) ^ (-149 : Int)
  else sign * (2 ^ 23 + (floatFraction F : Rat)) * (2 : Rat) ^ ((floatExponent F : Int) - 150)

/-- `round_half_away(y) = sign(y) * floor(|y| + 1/2)` (rule R106); for the statements. -/
def roundHalfAway (y : Rat) : Int :=
  if y < 0 then -(-y + 1 / 2).floor else (y + 1 / 2).floor

end Sys2Proof.Machine
end

