-- ==== Sys2Proof/Machine/Increment.lean ====
section
/-! DEFINITION. The increment a frequency gives (41_frequency_control.md rules R100, R102 to R107). The division comes
last (90_conflicts.md C1). -/

namespace Sys2Proof.Machine

/-- `ratio_inc(N) = (N div r) mod 2^32`, the numerator exact (rule R100). -/
def ratioInc (r numerator : Nat) : Word := BitVec.ofNat 32 (numerator / r)

/-- The exact numerator `f * L * 2^16` of an integer frequency (rules R103, R109). -/
def hertzNumerator (k : Nat) (f : Word) : Nat := f.toNat * 2 ^ k * 2 ^ 16

/-- The exact numerator `f * L * 2^(16 - 8)` of a Q24n8 frequency (rule R102). -/
def q24n8Numerator (k : Nat) (f : Word) : Nat := f.toNat * 2 ^ k * 2 ^ (16 - 8)

/-- The increment of an integer frequency (rules R103, R109). -/
def hertzInc (cfg : Configuration) (f : Word) : Word := ratioInc cfg.r (hertzNumerator cfg.k f)

/-- The increment of a Q24n8 frequency (rule R102). -/
def q24n8Inc (cfg : Configuration) (f : Word) : Word := ratioInc cfg.r (q24n8Numerator cfg.k f)

/-- A quotient of naturals to the nearest integer, a tie upward: `floor(n / d + 1/2)`. -/
def roundQuotient (n d : Nat) : Nat := (2 * n + d) / (2 * d)

/-- `|n|` of rule R104 for a finite `F`: `|value(F)| * L * 2^16 / r` to the nearest integer, a tie away from zero
(rule R106); `floatScaledMagnitude` is in units of `2^-150`, so the quotient is exact. -/
def floatMagnitude (cfg : Configuration) (F : Word) : Nat :=
  roundQuotient (floatScaledMagnitude F * 2 ^ cfg.k * 2 ^ 16) (2 ^ 150 * cfg.r)

/-- `n` of rule R104 for a finite `F`: the sign is the operand's. -/
def floatRounded (cfg : Configuration) (F : Word) : Int :=
  if floatSign F then -(floatMagnitude cfg F : Int) else (floatMagnitude cfg F : Int)

/-- The increment of a finite float frequency, `n mod 2^32` (rule R107). -/
def floatInc (cfg : Configuration) (F : Word) : Word := BitVec.ofInt 32 (floatRounded cfg F)

end Sys2Proof.Machine
end

