-- ==== Sys2Proof/Config.lean ====
section
/-! DEFINITION. The free values: what 00_scope.md rule R14 calls `draw`, and the order of two commands presented at
once. Neither has a body, so no proof can know one. Each takes the instance's stream and its count of draws: no two draws
of one instance, and no two instances, share an argument, so nothing relates one draw to another ("under no law"). That
the draws are told apart so is the model's DESIGN CHOICE, log entry 21. -/

namespace Sys2Proof

/-- `NAN_INC`: the increment a NaN or infinite float frequency stores, at an instance's stream and its n-th draw: "any
32-bit value, under no law" (41_frequency_control.md rule R108; decision D27). FREE VALUE, log entries 9 and 21. -/
opaque Config.nanInc : Nat → Nat → Word

/-- `ORDER` where the block must choose: the port whose command is performed first when both ports present one, at an
instance's stream and its n-th draw (20_memory.md rule R50; 60_exceptions.md rule R135; decision D26). FREE VALUE, log
entries 8 and 21. -/
opaque Config.order : Nat → Nat → Port

end Sys2Proof
end

