-- ==== Sys2Proof/Machine/Ops.lean ====
section
/-! DEFINITION. The named operations over the table, the registers and the ports, which every meaning is written in.
The block raises no exception, so there is no exception entry and no return from one (60_exceptions.md rules R130,
R137). -/

namespace Sys2Proof.Machine

/-! ### The wavetable (20_memory.md rules R40 to R48) -/

/-- What an offset nothing was bound to reads as. The spec has every offset of the table bound by construction and says
nothing of one that is not. DESIGN CHOICE, log entry 5. -/
def Memory.unlisted : Byte := 0

/-- The canonical form: offsets strictly rising, no cell equal to what an unlisted offset reads as. -/
abbrev Memory.wf (m : Memory) : Prop :=
  m.Pairwise (fun x y => x.1 < y.1) ∧ ∀ c ∈ m, c.2 ≠ Memory.unlisted

/-- The byte at an offset. -/
def Memory.read : Memory → Nat → Byte
  | [], _ => Memory.unlisted
  | (x, b) :: m, a => if x = a then b else Memory.read m a

/-- The table with one byte set, in canonical form. Only construction uses it: the block itself writes no memory
(20_memory.md rule R40). -/
def Memory.write : Memory → Nat → Byte → Memory
  | [], a, b => if b = Memory.unlisted then [] else [(a, b)]
  | (x, c) :: m, a, b =>
    if a < x then
      if b = Memory.unlisted then (x, c) :: m else (a, b) :: (x, c) :: m
    else if a = x then
      if b = Memory.unlisted then m else (a, b) :: m
    else (x, c) :: Memory.write m a b

/-- Bind a cell into a table of length `2^k`; a cell whose offset is outside the wavetable space `0 .. L - 1`
(20_memory.md rule R40) is not part of it. DESIGN CHOICE, log entry 12. -/
def Memory.bindCell (k : Nat) (m : Memory) (c : Host.Cell) : Memory :=
  if c.1 < 2 ^ k then Memory.write m c.1 c.2 else m

/-- The table that construction binds from the host's cells, a later cell of one offset over an earlier one. -/
def Memory.bind (k : Nat) (cells : List Host.Cell) : Memory :=
  cells.foldl (Memory.bindCell k) []

/-- `TableRead(off)` (20_memory.md rule R42): the byte at `off`; no side effect, no failure. -/
def tableRead (s : State) (off : Nat) : Byte := Memory.read s.cfg.table off

/-! ### The registers and the ports -/

/-- Write PHASE (10_state.md rule R22). -/
def State.setPhase (s : State) (v : Word) : State := { s with phase := v }

/-- Write PHASE_INC and set INC_SET (41_frequency_control.md rule R101; 10_state.md rule R25). -/
def State.setInc (s : State) (v : Word) : State := { s with phaseInc := v, incSet := true }

/-- A port's state (10_state.md rule R30). -/
def State.port (s : State) : Port → PortState
  | .P => s.portP
  | .C => s.portC

/-- A port's state replaced. -/
def State.setPort (s : State) (p : Port) (ps : PortState) : State :=
  match p with
  | .P => { s with portP := ps }
  | .C => { s with portC := ps }

/-- The host's remaining interactions replaced. -/
def State.setHost (s : State) (h : List HostEvent) : State := { s with host := h }

/-- One more free value has been drawn (00_scope.md rule R14, `draw`). -/
def State.countDraw (s : State) : State := { s with draws := s.draws + 1 }

/-- The instance draws its free values from the stream `j` (60_exceptions.md rule R142; log entry 21). -/
def State.onStream (s : State) (j : Nat) : State := { s with stream := j }

/-- A port with its command taken, so that it is performed once (10_state.md rule R31). -/
def PortState.taken (ps : PortState) : PortState := { ps with command := none }

/-- A port with a command presented (10_state.md rule R31); a port presented nothing stays as it is. -/
def PortState.presented (ps : PortState) : Option CommandWord → PortState
  | none => ps
  | some w => { ps with command := some w }

/-- A port with one more response returned (10_state.md rule R32). -/
def PortState.responded (ps : PortState) (v : Word) : PortState :=
  { ps with responses := ps.responses ++ [v] }

/-- Take the command from a port's presented word. -/
def State.takeCommand (s : State) (p : Port) : State := s.setPort p (s.port p).taken

/-- The host presents words on the ports (10_state.md rules R31, R33). -/
def State.present (s : State) (onP onC : Option CommandWord) : State :=
  (s.setPort .P (s.portP.presented onP)).setPort .C (s.portC.presented onC)

/-- `respond(v)` on the issuing port (10_state.md rule R32). -/
def State.respond (s : State) (p : Port) (v : Word) : State := s.setPort p ((s.port p).responded v)

/-! ### What the commands share -/

/-- Go on with a next state; a fault or a refusal stays. -/
def andThen (o : Host.Outcome State Fault Refusal) (f : State → Host.Outcome State Fault Refusal) :
    Host.Outcome State Fault Refusal :=
  match o with
  | .next s => f s
  | .fault r => .fault r
  | .refused r => .refused r

/-- NEXT and PHMOD are accepted on port P only (10_state.md rule R30). -/
def producerOnly (p : Port) (s : State) : Host.Outcome State Fault Refusal :=
  match p with
  | .P => .next s
  | .C => .refused .wrongPort

/-- `advance()` (40_sample_generation.md rule R80): the spec's own model fault (60_exceptions.md rule R132; 90_conflicts.md
C2) is taken before PHASE changes. -/
def advance (s : State) : Host.Outcome State Fault Refusal :=
  if s.incSet then .next (s.setPhase (s.phase + s.phaseInc)) else .fault .incrementUnset

/-- Read the table once and answer the sample, sign-extended, on the issuing port (20_memory.md rule R43; 10_state.md
rule R32). -/
def respondSample (p : Port) (off : Nat) (s : State) : Host.Outcome State Fault Refusal :=
  .next (s.respond p ((tableRead s off).signExtend 32))

/-- `write_inc(v)` (41_frequency_control.md rule R101): the store, and the acknowledgement 0. -/
def writeInc (p : Port) (v : Word) (s : State) : Host.Outcome State Fault Refusal :=
  .next ((s.setInc v).respond p 0)

/-! ### Construction -/

/-- Which configurations have an instance: `0 <= k <= 16` and `1 <= r <= 2^32 - 1` (00_scope.md rules R7, R8;
70_reset_and_hazards.md rule R150). -/
def validConfig (k r : Nat) : Bool := decide (k ≤ 16 ∧ 1 ≤ r ∧ r ≤ 2 ^ 32 - 1)

/-- `reset(k, r, TABLE)` (70_reset_and_hazards.md rules R150, R151): the previous state and configuration are discarded.
The host's remaining interactions, the draw counter and the stream are not the block's and stay (log entry 13);
PHASE_INC has no value, see State.reset. -/
def construct (k r : Nat) (cells : List Host.Cell) (s : State) : Host.Outcome State Fault Refusal :=
  if validConfig k r then
    .next
      { phase := 0
        phaseInc := 0
        incSet := false
        cfg := { k := k, r := r, table := Memory.bind k cells }
        portP := PortState.idle
        portC := PortState.idle
        host := s.host
        draws := s.draws
        stream := s.stream }
  else .refused .invalidConfiguration

end Sys2Proof.Machine
end

