-- ==== Sys2Proof/Machine/Frequency.lean ====
section
/-! DEFINITION. The frequency commands SETFREQ.N8, SETFREQ.U, SETFREQ.F, PHINC and SETINC (41_frequency_control.md rules
R100 to R110). -/

namespace Sys2Proof.Machine

/-- SETFREQ.N8 (rule R102). -/
def execSetfreqN8 (p : Port) (f : Word) (s : State) : Host.Outcome State Fault Refusal :=
  writeInc p (q24n8Inc s.cfg f) s

/-- SETFREQ.U (rule R103). -/
def execSetfreqU (p : Port) (f : Word) (s : State) : Host.Outcome State Fault Refusal :=
  writeInc p (hertzInc s.cfg f) s

/-- SETFREQ.F (rule R104): a NaN or an infinity stores the free draw NAN_INC (rule R108), a finite value its rounded
increment modulo `2^32` (rule R107). -/
def execSetfreqF (p : Port) (f : Word) (s : State) : Host.Outcome State Fault Refusal :=
  if floatIsSpecial f then writeInc p (Config.nanInc s.stream s.draws) s.countDraw
  else writeInc p (floatInc s.cfg f) s

/-- PHINC (rule R109): the increment SETFREQ.U would store is answered and nothing is stored. -/
def execPhinc (p : Port) (f : Word) (s : State) : Host.Outcome State Fault Refusal :=
  .next (s.respond p (hertzInc s.cfg f))

/-- SETINC (rule R110). -/
def execSetinc (p : Port) (v : Word) (s : State) : Host.Outcome State Fault Refusal :=
  writeInc p v s

end Sys2Proof.Machine
end

