-- ==== Sys2Proof/Machine/Sample.lean ====
section
/-! DEFINITION. The sample commands NEXT, PHMOD and ATINDEX (40_sample_generation.md rules R80 to R83). -/

namespace Sys2Proof.Machine

/-- NEXT (rule R81): the index is taken from the phase after the advance. -/
def execNext (p : Port) (s : State) : Host.Outcome State Fault Refusal :=
  andThen (producerOnly p s) fun s =>
    andThen (advance s) fun s => respondSample p (phaseIndex s.cfg.k s.phase) s

/-- PHMOD (rule R82): the modulated phase is read from, not stored. -/
def execPhmod (p : Port) (m : Word) (s : State) : Host.Outcome State Fault Refusal :=
  andThen (producerOnly p s) fun s =>
    andThen (advance s) fun s => respondSample p (phaseIndex s.cfg.k (modulatedPhase s.cfg.k s.phase m)) s

/-- ATINDEX (rule R83): stateless, legal before any increment is written. -/
def execAtindex (p : Port) (i : Word) (s : State) : Host.Outcome State Fault Refusal :=
  respondSample p (maskedIndex s.cfg.k i) s

end Sys2Proof.Machine
end

