-- ==== Sys2Proof/Machine/Dispatch.lean ====
section
/-! DEFINITION. One command's meaning: one arm per constructor of Instr (30_encoding.md rule R62). -/

namespace Sys2Proof.Machine

def exec (i : Instr) (s : State) : Host.Outcome State Fault Refusal :=
  match i with
  | .next p => Sys2Proof.Machine.execNext p s
  | .phmod p m => Sys2Proof.Machine.execPhmod p m s
  | .atindex p n => Sys2Proof.Machine.execAtindex p n s
  | .setfreqN8 p f => Sys2Proof.Machine.execSetfreqN8 p f s
  | .setfreqU p f => Sys2Proof.Machine.execSetfreqU p f s
  | .setfreqF p f => Sys2Proof.Machine.execSetfreqF p f s
  | .phinc p f => Sys2Proof.Machine.execPhinc p f s
  | .setinc p v => Sys2Proof.Machine.execSetinc p v s

end Sys2Proof.Machine
end

