-- ==== Sys2Proof/Machine/Agents.lean ====
section
/-! DEFINITION. Who moves next, the block or the host, and what it does (10_state.md rules R30 to R33; 20_memory.md rules
R47, R50; 60_exceptions.md rule R135). -/

namespace Sys2Proof.Machine

/-- The block performs the word presented on a port, as one indivisible step (20_memory.md rule R47): the port's command
is taken, decoded and executed; a refused word ends the run (60_exceptions.md rule R133). -/
def perform (p : Port) (w : CommandWord) (s : State) : Host.Outcome State Fault Refusal :=
  match decode p w with
  | .ok i => exec i (s.takeCommand p)
  | .reservedEncoding => .refused .reservedEncoding
  | .wrongPort => .refused .wrongPort

/-- The host's next interaction, when neither port holds a command (10_state.md rule R33). With none left the block waits
(70_reset_and_hazards.md rules R152, R158): it never halts. Log entries 6 and 7. -/
def hostMove (s : State) : Host.Outcome State Fault Refusal :=
  match s.host with
  | [] => .next s
  | .present onP onC :: rest => .next ((s.setHost rest).present onP onC)
  | .construct k r cells :: rest => construct k r cells (s.setHost rest)

/-- One move. A command presented on one port is performed. Of two presented at once one is performed and the other stays
presented, in either order: the choice is ORDER's, a free value (60_exceptions.md rule R135; 20_memory.md rule R50). With
none presented the host moves. -/
def move (s : State) : Host.Outcome State Fault Refusal :=
  match s.portP.command, s.portC.command with
  | none, none => hostMove s
  | some w, none => perform .P w s
  | none, some w => perform .C w s
  | some wP, some wC =>
    match Config.order s.stream s.draws with
    | .P => perform .P wP s.countDraw
    | .C => perform .C wC s.countDraw

/-- `s` with a word presented on port P and none on port C, so that the next move performs exactly it. -/
def State.presentOnP (s : State) (w : CommandWord) : State :=
  (s.setPort .P (s.portP.presented (some w))).setPort .C s.portC.taken

end Sys2Proof.Machine
end

