-- ==== Sys2Proof/Machine/Step.lean ====
section
/-! DEFINITION. The step function, and how an instruction is laid where the next step takes it. -/

namespace Sys2Proof.Machine

/-- One step (20_memory.md rule R47): the next command in ORDER, or the host's next interaction when none is presented. -/
def step (s : State) : Host.Outcome State Fault Refusal := Sys2Proof.Machine.move s

/-- `s` with the command word whose bits are `w` (bits from `nbits` up 0) presented on port P, and nothing on port C: the
block fetches nothing and takes its commands from the ports (10_state.md rules R26, R31). Log entry 6. -/
def State.withFetchWord (s : State) (nbits w : Nat) : State :=
  s.presentOnP (BitVec.ofNat 40 (w % 2 ^ nbits))

end Sys2Proof.Machine
end

