-- ==== Sys2Proof/Machine/Assembler.lean ====
section
/-! DEFINITION. The assembler of 30_encoding.md rule R66, from a line's parts to the port and the word. It is the host's
tool, not the block's: no step calls it. Machine/AssemblerText.lean reads a line's characters. -/

namespace Sys2Proof.Machine

/-- The eight mnemonics of rule R66. -/
inductive Mnemonic where
  | next
  | phmod
  | atindex
  | setfreqN8
  | setfreqU
  | setfreqF
  | phinc
  | setinc
deriving DecidableEq, Repr

/-- An operand of rule R66: an integer, a float literal (`digits * 10^exp10`, with its sign), or `raw(0x...)`. -/
inductive AsmOperand where
  | integer (n : Int)
  | float (negative : Bool) (digits : Nat) (exp10 : Int)
  | raw (bits : Nat)
deriving DecidableEq, Repr

/-- One line: `[port ":"] mnemonic [operand]`; its comment is gone. -/
structure AsmLine where
  port : Option Port
  mnemonic : Mnemonic
  operand : Option AsmOperand
deriving DecidableEq, Repr

/-! ### A float literal to the nearest binary32, ties to even (rule R66) -/

/-- The quotient to the nearest integer, a tie to the even one. -/
def roundHalfEven (n d : Nat) : Nat :=
  let q := n / d
  let rest := 2 * (n % d)
  if d < rest ∨ (rest = d ∧ q % 2 = 1) then q + 1 else q

/-- The biased exponent of the binary32 grid that `n / d` is rounded on: the least `e >= 1` with
`n / d < 2^24 * 2^(e - 150)`. -/
def gridExponent (n d : Nat) : Nat := max 1 (Nat.log2 (n * 2 ^ 150 / d) - 23)

/-- The bits, without the sign, of the binary32 value nearest to `n / d`. A significand that rounds up to `2^24` carries
into the exponent; what is beyond the largest finite value becomes the infinity (PRESUMED, IEEE 754, log entry 15). -/
def nearestMagnitude (n d : Nat) : Nat :=
  let e := gridExponent n d
  min (e * 2 ^ 23 + roundHalfEven (n * 2 ^ 150) (d * 2 ^ e) - 2 ^ 23) 0x7F800000

/-- The binary32 pattern of a float literal. -/
def floatLiteral (negative : Bool) (digits : Nat) (exp10 : Int) : Word :=
  let bits := nearestMagnitude (digits * 10 ^ exp10.toNat) (10 ^ (-exp10).toNat)
  BitVec.ofNat 32 (if negative then 2 ^ 31 + bits else bits)

/-! ### Operands by mnemonic (rule R66) -/

/-- An integer operand in `low .. 2^32 - 1`, stored as its bits, a negative one as its two's complement. -/
def integerOperand (low : Int) : Option AsmOperand → Option Word
  | some (.integer n) => if low ≤ n ∧ n < 2 ^ 32 then some (BitVec.ofInt 32 n) else none
  | some (.float _ _ _) => none
  | some (.raw _) => none
  | none => none

/-- SETFREQ.F's operand: a float literal or 32 raw bits. -/
def floatOperand : Option AsmOperand → Option Word
  | some (.float negative digits exp10) => some (floatLiteral negative digits exp10)
  | some (.raw bits) => if bits < 2 ^ 32 then some (BitVec.ofNat 32 bits) else none
  | some (.integer _) => none
  | none => none

/-- The command of a line on a port; none is an assembly error (rule R66). -/
def assembleInstr (p : Port) (m : Mnemonic) (o : Option AsmOperand) : Option Instr :=
  match m with
  | .next => if o.isNone then some (.next p) else none
  | .phmod => (integerOperand (-(2 ^ 31)) o).map (.phmod p)
  | .atindex => (integerOperand 0 o).map (.atindex p)
  | .setfreqN8 => (integerOperand 0 o).map (.setfreqN8 p)
  | .setfreqU => (integerOperand 0 o).map (.setfreqU p)
  | .setfreqF => (floatOperand o).map (.setfreqF p)
  | .phinc => (integerOperand 0 o).map (.phinc p)
  | .setinc => (integerOperand 0 o).map (.setinc p)

/-- The port and the word of a line. A line without a port prefix is on port P; the port is not checked here, the decoder
refuses NEXT and PHMOD on port C (rules R65, R66). -/
def assemble (l : AsmLine) : Option (Port × CommandWord) :=
  let p := l.port.getD .P
  (assembleInstr p l.mnemonic l.operand).map fun i => (p, encode i)

end Sys2Proof.Machine
end

