-- ==== Sys2Proof/Machine/AssemblerText.lean ====
section
/-! DEFINITION. A line of the assembler as characters (30_encoding.md rule R66):
`line := [port ":"] mnemonic [operand] [";" comment]`. What the rule leaves to the lexer (blanks, letter case, digits of
a float literal) is a DESIGN CHOICE, log entry 16. -/

namespace Sys2Proof.Machine

/-- A digit's value in a base up to 16. -/
def digitValue (base : Nat) (c : Char) : Option Nat :=
  let n := c.toNat
  let v :=
    if 48 ≤ n ∧ n ≤ 57 then n - 48
    else if 65 ≤ n ∧ n ≤ 70 then n - 55
    else if 97 ≤ n ∧ n ≤ 102 then n - 87
    else 16
  if v < base then some v else none

/-- The value of a digit string read after `acc`; none where a character is no digit. -/
def digitsFrom (base : Nat) : Nat → List Char → Option Nat
  | acc, [] => some acc
  | acc, c :: cs =>
    match digitValue base c with
    | some d => digitsFrom base (acc * base + d) cs
    | none => none

/-- A digit string that is not empty. -/
def readDigits (base : Nat) (cs : List Char) : Option Nat :=
  if cs.isEmpty then none else digitsFrom base 0 cs

/-- `decimal` or `"0x" hex`. -/
def readNatural : List Char → Option Nat
  | '0' :: 'x' :: hex => readDigits 16 hex
  | cs => readDigits 10 cs

/-- `integer := decimal | "-" decimal | "0x" hex`. -/
def readInteger : List Char → Option Int
  | '-' :: cs => (readDigits 10 cs).map fun n => -(n : Int)
  | cs => (readNatural cs).map fun n => (n : Int)

/-- Split at the first character that `p` accepts; none where there is none. -/
def splitAtFirst (p : Char → Bool) : List Char → Option (List Char × List Char)
  | [] => none
  | c :: cs => if p c then some ([], cs) else (splitAtFirst p cs).map fun r => (c :: r.1, r.2)

/-- The exponent part of a float literal: an integer with an optional sign. -/
def readExponent : List Char → Option Int
  | '+' :: cs => (readDigits 10 cs).map fun n => (n : Int)
  | '-' :: cs => (readDigits 10 cs).map fun n => -(n : Int)
  | cs => (readDigits 10 cs).map fun n => (n : Int)

/-- The digits and the power of ten of a mantissa, with or without a decimal point. -/
def readMantissa (cs : List Char) : Option (Nat × Int) :=
  match splitAtFirst (· == '.') cs with
  | none => (readDigits 10 cs).map fun n => (n, 0)
  | some (whole, frac) => (readDigits 10 (whole ++ frac)).map fun n => (n, -(frac.length : Int))

/-- A float literal without its sign: digits with a decimal point or an exponent. -/
def readUnsignedFloat (negative : Bool) (cs : List Char) : Option AsmOperand :=
  match splitAtFirst (fun c => c == 'e' || c == 'E') cs with
  | some (mantissa, ex) =>
    match readMantissa mantissa, readExponent ex with
    | some (n, e), some x => some (.float negative n (e + x))
    | some _, none => none
    | none, _ => none
  | none =>
    if cs.contains '.' then (readMantissa cs).map fun r => .float negative r.1 r.2 else none

/-- A float literal. -/
def readFloat : List Char → Option AsmOperand
  | '-' :: cs => readUnsignedFloat true cs
  | cs => readUnsignedFloat false cs

/-- `"raw(" hex ")"`, the digits with their `0x`. -/
def readRaw : List Char → Option AsmOperand
  | 'r' :: 'a' :: 'w' :: '(' :: '0' :: 'x' :: cs =>
    match splitAtFirst (· == ')') cs with
    | some (hex, []) => (readDigits 16 hex).map .raw
    | some (_, _ :: _) => none
    | none => none
  | _ => none

/-- `operand := integer | float | "raw(" hex ")"`. -/
def readOperand (cs : List Char) : Option AsmOperand :=
  ((readInteger cs).map .integer).or ((readRaw cs).or (readFloat cs))

/-- The mnemonics as rule R66 spells them. -/
def readMnemonic (cs : List Char) : Option Mnemonic :=
  if cs = ['N', 'E', 'X', 'T'] then some .next
  else if cs = ['P', 'H', 'M', 'O', 'D'] then some .phmod
  else if cs = ['A', 'T', 'I', 'N', 'D', 'E', 'X'] then some .atindex
  else if cs = ['S', 'E', 'T', 'F', 'R', 'E', 'Q', '.', 'N', '8'] then some .setfreqN8
  else if cs = ['S', 'E', 'T', 'F', 'R', 'E', 'Q', '.', 'U'] then some .setfreqU
  else if cs = ['S', 'E', 'T', 'F', 'R', 'E', 'Q', '.', 'F'] then some .setfreqF
  else if cs = ['P', 'H', 'I', 'N', 'C'] then some .phinc
  else if cs = ['S', 'E', 'T', 'I', 'N', 'C'] then some .setinc
  else none

/-- `port := "P" | "C"`. -/
def readPort (cs : List Char) : Option Port :=
  if cs = ['P'] then some .P else if cs = ['C'] then some .C else none

/-- A line without its comment. -/
def dropComment (cs : List Char) : List Char := cs.takeWhile (· != ';')

/-- The words of a line: split at blanks, and a colon a word of its own. -/
def lineWords (cs : List Char) : List (List Char) :=
  (cs.foldr
    (fun c acc =>
      if c == ' ' || c == '\t' then [] :: acc
      else if c == ':' then [] :: [':'] :: acc
      else
        match acc with
        | [] => [[c]]
        | w :: ws => (c :: w) :: ws)
    [[]]).filter (fun w => !w.isEmpty)

/-- `mnemonic [operand]`. -/
def readCommand (port : Option Port) : List (List Char) → Option AsmLine
  | [m] => (readMnemonic m).map fun m => { port := port, mnemonic := m, operand := none }
  | [m, o] =>
    match readMnemonic m, readOperand o with
    | some m, some o => some { port := port, mnemonic := m, operand := some o }
    | some _, none => none
    | none, _ => none
  | _ => none

/-- `[port ":"] mnemonic [operand] [";" comment]`. -/
def readLine (cs : List Char) : Option AsmLine :=
  match lineWords (dropComment cs) with
  | p :: [':'] :: rest =>
    match readPort p with
    | some p => readCommand (some p) rest
    | none => none
  | words => readCommand none words

/-- The port and the word of a line of text. -/
def assembleText (cs : List Char) : Option (Port × CommandWord) := (readLine cs).bind assemble

end Sys2Proof.Machine
end

