-- ==== Sys2Proof/Machine/Instances.lean ====
section
/-! DEFINITION. Several instances of the block (60_exceptions.md rule R142): each has its own state and configuration, and
they do not signal each other. An instance has no identifier of its own; the list's position is the host's, and it is
also the stream of free values the instance draws from, so that a draw of one instance is under no law with a draw of
another (41_frequency_control.md rule R108). DESIGN CHOICE, log entries 20 and 21. -/

namespace Sys2Proof.Machine

/-- One instance of a list of them takes a step, on its own stream of free values; a position that holds none changes
nothing. The outer list is the next one, or nothing where that instance's own step stops. -/
def stepInstance (l : List State) (j : Nat) : Option (List State) :=
  match l[j]? with
  | none => some l
  | some s =>
    match step (s.onStream j) with
    | .next t => some (l.set j t)
    | .fault _ => none
    | .refused _ => none

end Sys2Proof.Machine
end

