-- ==== Sys2Proof/Machine/Flags.lean ====
section
/-! DEFINITION. The block has no flags, condition codes or predicates, and no command sets or reads one (10_state.md rule
R27). What stands here is the condition a flag would record elsewhere: numeric overflow of a setter, which the block
neither detects nor reports (41_frequency_control.md rule R112). No meaning reads it; the statements and Safety.lean do. -/

namespace Sys2Proof.Machine

/-- The exact quotient of SETFREQ.U and PHINC is `2^32` or more (rule R112). -/
def hertzOverflows (cfg : Configuration) (f : Word) : Bool :=
  decide (2 ^ 32 ≤ hertzNumerator cfg.k f / cfg.r)

/-- The exact quotient of SETFREQ.N8 is `2^32` or more (rule R112). -/
def q24n8Overflows (cfg : Configuration) (f : Word) : Bool :=
  decide (2 ^ 32 ≤ q24n8Numerator cfg.k f / cfg.r)

/-- The rounded result of SETFREQ.F leaves `0 .. 2^32 - 1` (rules R107, R112). -/
def floatOverflows (cfg : Configuration) (F : Word) : Bool :=
  decide (floatRounded cfg F < 0 ∨ 2 ^ 32 ≤ floatRounded cfg F)

end Sys2Proof.Machine
end

