-- ==== Sys2Proof/Safety.lean ====
section
/-! DEFINITION. What counts as a safe run, in the terms the statements use: the invariant of the machine, the host's
preconditions, several commands in one order, and what a run is observed by. -/

namespace Sys2Proof.Machine

/-- The configuration has an instance (00_scope.md rules R7, R8). -/
def Configuration.valid (cfg : Configuration) : Bool := validConfig cfg.k cfg.r

/-- The invariant: a valid configuration; the table in canonical form with every listed offset in the wavetable space
(20_memory.md rule R40); PHASE still 0 while no increment has been written (10_state.md rules R22, R25, R34). -/
structure Inv (s : State) : Prop where
  valid : s.cfg.valid = true
  canonical : Memory.wf s.cfg.table
  inSpace : ∀ c ∈ s.cfg.table, c.1 < 2 ^ s.cfg.k
  phaseUnset : s.incSet = false → s.phase = 0

/-- Both ports idle: no command in progress (10_state.md rule R34). -/
def State.portsIdle (s : State) : Bool := s.portP.command.isNone && s.portC.command.isNone

/-- The run has ended: the host has presented its last command and received its response (70_reset_and_hazards.md rule
R158). -/
def State.finished (s : State) : Bool := s.portsIdle && s.host.isEmpty

/-- What a run is observed by (70_reset_and_hazards.md rule R158). -/
structure Observation where
  responsesP : List Word
  responsesC : List Word
  phase : Word
  phaseInc : Word
  incSet : Bool
deriving DecidableEq, Repr

/-- The observation of a run that ends in `s`. -/
def State.observation (s : State) : Observation :=
  { responsesP := s.portP.responses
    responsesC := s.portC.responses
    phase := s.phase
    phaseInc := s.phaseInc
    incSet := s.incSet }

/-- Several commands performed in one order, each reading the state the one before it left (20_memory.md rule R50). -/
def execAll : List Instr → State → Host.Outcome State Fault Refusal
  | [], s => .next s
  | i :: rest, s => andThen (exec i s) (execAll rest)

/-- `n` steps, to the first fault or refusal. -/
def runSteps : Nat → State → Host.Outcome State Fault Refusal
  | 0, s => .next s
  | n + 1, s => andThen (step s) (runSteps n)

/-- The host presents one command, on the port that issues it, and nothing on the other. -/
def presentation (i : Instr) : HostEvent :=
  match i.port with
  | .P => .present (some (encode i)) none
  | .C => .present none (some (encode i))

/-- The host's preconditions over a sequence of commands (70_reset_and_hazards.md rule R153): every command on a port that
accepts it, and an increment written before the first NEXT or PHMOD. -/
def readyFrom : Bool → List Instr → Bool
  | _, [] => true
  | set, i :: rest => i.wellFormed && (set || !i.advances) && readyFrom (set || i.writesInc) rest

end Sys2Proof.Machine
end

