-- ==== Sys2Proof/Certificates/Slice0/Obligations.lean ====
section
/-! DEFINITION. The statements for the provers, in the spec's terms. -/

open Sys2Proof Sys2Proof.Machine

/-! ### Encoding and decoding -/

/-- One word of each row of the opcode map (30_encoding.md rule R62) decodes to its command. -/
def Obligations.OpcodeMapWordsDecode : Prop :=
  decode .P 0x0100000000#40 = .ok (.next .P) ∧
    decode .P 0x02FFFF0000#40 = .ok (.phmod .P 0xFFFF0000#32) ∧
    decode .C 0x03000001FF#40 = .ok (.atindex .C 511#32) ∧
    decode .C 0x100001B880#40 = .ok (.setfreqN8 .C 112768#32) ∧
    decode .P 0x1100000040#40 = .ok (.setfreqU .P 64#32) ∧
    decode .C 0x12C2800000#40 = .ok (.setfreqF .C 0xC2800000#32) ∧
    decode .P 0x1300000080#40 = .ok (.phinc .P 128#32) ∧
    decode .C 0x14FFFFFFFF#40 = .ok (.setinc .C 0xFFFFFFFF#32)

/-- The decoder is rule R65's procedure, written over the word as a number: `OP` is `w / 2^32`, `OPERAND` is
`w mod 2^32`. -/
def Obligations.DecoderFollowsItsCheckOrder : Prop :=
  ∀ (p : Port) (w : CommandWord),
    decode p w =
      (if w.toNat / 2 ^ 32 = 0x01 then
        if w.toNat % 2 ^ 32 ≠ 0 then .reservedEncoding else if p ≠ .P then .wrongPort else .ok (.next p)
      else if w.toNat / 2 ^ 32 = 0x02 then
        if p ≠ .P then .wrongPort else .ok (.phmod p (BitVec.ofNat 32 w.toNat))
      else if w.toNat / 2 ^ 32 = 0x03 then .ok (.atindex p (BitVec.ofNat 32 w.toNat))
      else if w.toNat / 2 ^ 32 = 0x10 then .ok (.setfreqN8 p (BitVec.ofNat 32 w.toNat))
      else if w.toNat / 2 ^ 32 = 0x11 then .ok (.setfreqU p (BitVec.ofNat 32 w.toNat))
      else if w.toNat / 2 ^ 32 = 0x12 then .ok (.setfreqF p (BitVec.ofNat 32 w.toNat))
      else if w.toNat / 2 ^ 32 = 0x13 then .ok (.phinc p (BitVec.ofNat 32 w.toNat))
      else if w.toNat / 2 ^ 32 = 0x14 then .ok (.setinc p (BitVec.ofNat 32 w.toNat))
      else .reservedEncoding)

/-- Every well-formed command decodes from its own word, with every operand, on the port that issues it; and on port P
through the table's numbering of its bits. -/
def Obligations.EncodeThenDecodeIsIdentity : Prop :=
  ∀ i : Instr, i.wellFormed = true →
    decode i.port (encode i) = .ok i ∧ (i.port = .P → decodeTableWord 40 (encode i).toNat = some i)

/-- The other direction: a word that decodes is the encoding of the command it decodes to, no bit dropped. -/
def Obligations.DecodedWordIsItsEncoding : Prop :=
  ∀ (p : Port) (w : CommandWord) (i : Instr), decode p w = .ok i → encode i = w ∧ i.port = p ∧ i.wellFormed = true

/-- The reserved words are exactly those of rules R63 and R64, on either port, and a step that meets one alone refuses
it: no next state, so no step performed and no response. -/
def Obligations.ReservedWordsAreRefused : Prop :=
  ∀ (p q : Port) (w : CommandWord), p ≠ q →
    (decode p w = .reservedEncoding ↔
      w.toNat / 2 ^ 32 = 0x00 ∨ (0x04 ≤ w.toNat / 2 ^ 32 ∧ w.toNat / 2 ^ 32 ≤ 0x0F) ∨ 0x15 ≤ w.toNat / 2 ^ 32 ∨
        (w.toNat / 2 ^ 32 = 0x01 ∧ w.toNat % 2 ^ 32 ≠ 0)) ∧
    ∀ s : State, (s.port p).command = some w → (s.port q).command = none → decode p w = .reservedEncoding →
      step s = .refused .reservedEncoding

/-- NEXT and PHMOD are refused on port C (10_state.md rule R30), by the step and by the meaning; every other word that is
not reserved is accepted on both ports, and on port P so are these. -/
def Obligations.ProducerCommandsAreRefusedOnPortC : Prop :=
  (∀ (p : Port) (w : CommandWord),
    decode p w = .wrongPort ↔ p = .C ∧ (w.toNat = 0x0100000000 ∨ w.toNat / 2 ^ 32 = 0x02)) ∧
  (∀ (s : State) (w : CommandWord), s.portC.command = some w → s.portP.command = none → decode .C w = .wrongPort →
    step s = .refused .wrongPort) ∧
  ∀ (s : State) (m : Word),
    exec (.next .C) s = .refused .wrongPort ∧ exec (.phmod .C m) s = .refused .wrongPort

/-! ### Steps, ports and order -/

/-- A step performs the command presented alone: it runs `exec` of the decoded command on the state with that port's
command taken and nothing else changed. -/
def Obligations.StepRunsThePresentedCommand : Prop :=
  ∀ (s : State) (p q : Port) (w : CommandWord) (i : Instr), p ≠ q →
    (s.port p).command = some w → (s.port q).command = none → decode p w = .ok i →
    step s = exec i (s.takeCommand p) ∧
      (s.takeCommand p).port p = { command := none, responses := (s.port p).responses } ∧
      (s.takeCommand p).port q = s.port q ∧ (s.takeCommand p).phase = s.phase ∧
      (s.takeCommand p).phaseInc = s.phaseInc ∧ (s.takeCommand p).incSet = s.incSet ∧
      (s.takeCommand p).cfg = s.cfg ∧ (s.takeCommand p).host = s.host ∧ (s.takeCommand p).draws = s.draws ∧
      (s.takeCommand p).stream = s.stream

/-- `withFetchWord` lays a command's word where the next step takes it, and the step runs exactly that command. The
arrangement is the model's (log entry 6). -/
def Obligations.FetchWordIsTheNextCommandRun : Prop :=
  ∀ (i : Instr) (s : State), i.wellFormed = true → i.port = .P →
    step (s.withFetchWord 40 (encode i).toNat) =
      exec i
        { s with
          portP := { command := none, responses := s.portP.responses }
          portC := { command := none, responses := s.portC.responses } }

/-- With no command presented the host moves: it presents words, or constructs the block again, or has ended and the
block waits unchanged. That the host moves in steps of its own is the model's choice (log entries 6 and 7). -/
def Obligations.HostMovesWhenPortsAreIdle : Prop :=
  ∀ s : State, s.portsIdle = true →
    (s.host = [] → step s = .next s) ∧
    (∀ (onP onC : Option CommandWord) (rest : List HostEvent), s.host = .present onP onC :: rest →
      step s =
        .next
          { s with
            portP := { command := onP, responses := s.portP.responses }
            portC := { command := onC, responses := s.portC.responses }
            host := rest }) ∧
    ∀ (k r : Nat) (cells : List Host.Cell) (rest : List HostEvent), s.host = .construct k r cells :: rest →
      step s = construct k r cells { s with host := rest }

/-- Two commands presented at once are performed one after the other, in one of the two orders; which one is ORDER's
choice, so the statement is a disjunction (it rests on the free value of log entry 8 only through the two cases). -/
def Obligations.SimultaneousCommandsRunInOneOfTheTwoOrders : Prop :=
  ∀ (s : State) (wP wC : CommandWord) (iP iC : Instr),
    s.portP.command = some wP → s.portC.command = some wC → decode .P wP = .ok iP → decode .C wC = .ok iC →
    let s' := (s.countDraw.takeCommand .P).takeCommand .C
    runSteps 2 s = execAll [iP, iC] s' ∨ runSteps 2 s = execAll [iC, iP] s'

/-- Any sequence of commands, from the two ports in any order, that the host presents one after the other is performed in
that order, each command on the state the one before it left; a command takes two steps, the host's and the block's
(log entry 7). -/
def Obligations.StepsPerformAnyPresentedSequence : Prop :=
  ∀ (l : List Instr) (s : State) (rest : List HostEvent),
    (∀ i ∈ l, i.wellFormed = true) → s.portsIdle = true → s.host = l.map presentation ++ rest →
    runSteps (2 * l.length) s = execAll l (s.setHost rest)

/-- A NEXT that overlaps an increment write from port C adds the whole old or the whole new increment, and after both the
new increment stands. -/
def Obligations.RacingNextAddsOldOrNewIncrement : Prop :=
  ∀ (s : State) (w : CommandWord) (i : Instr),
    s.incSet = true → s.portP.command = some (encode (.next .P)) → s.portC.command = some w → decode .C w = .ok i →
    i.writesInc = true →
    ∃ t u, runSteps 2 s = .next t ∧ exec i s.countDraw = .next u ∧ t.phaseInc = u.phaseInc ∧
      (t.phase = s.phase + s.phaseInc ∨ t.phase = s.phase + u.phaseInc)

/-! ### Sample generation -/

/-- NEXT (40_sample_generation.md rules R80, R81), in natural-number arithmetic. -/
def Obligations.NextAdvancesAndAnswersTheSample : Prop :=
  ∀ s : State, s.incSet = true →
    ∃ t v, exec (.next .P) s = .next t ∧
      t.phase.toNat = (s.phase.toNat + s.phaseInc.toNat) % 2 ^ 32 ∧
      t.portP.responses = s.portP.responses ++ [v] ∧
      v.toInt = (tableRead s (t.phase.toNat / 2 ^ 16 % 2 ^ s.cfg.k)).toInt

/-- PHMOD (rules R80, R82), in integer arithmetic: the sample is the one at the advanced phase plus `m * L`, and PHASE
moves by the increment alone. -/
def Obligations.PhmodAdvancesAndAnswersTheModulatedSample : Prop :=
  ∀ (s : State) (m : Word), s.incSet = true →
    ∃ t v, exec (.phmod .P m) s = .next t ∧
      t.phase.toNat = (s.phase.toNat + s.phaseInc.toNat) % 2 ^ 32 ∧
      t.portP.responses = s.portP.responses ++ [v] ∧
      v.toInt =
        (tableRead s
          (((t.phase.toNat : Int) + m.toInt * 2 ^ s.cfg.k) % 2 ^ 32 / 2 ^ 16 % 2 ^ s.cfg.k).toNat).toInt

/-- ATINDEX (rule R83): the response is its only effect, on either port, whether or not an increment was written. -/
def Obligations.AtindexAnswersTheMaskedCell : Prop :=
  ∀ (p : Port) (i : Word) (s : State),
    ∃ v : Word, exec (.atindex p i) s = .next (s.respond p v) ∧
      v.toInt = (tableRead s (i.toNat % 2 ^ s.cfg.k)).toInt

/-- PHMOD with `m = 0` is NEXT (rule R84), and it is NEXT where that faults too. -/
def Obligations.ZeroModulationIsNext : Prop :=
  ∀ s : State, exec (.phmod .P 0) s = exec (.next .P) s

/-- `n` NEXT or PHMOD commands, with any number of ATINDEX and PHINC between them and no write of the increment, leave
PHASE at `PHASE0 + n * inc` (rule R85), and all of them are performed. -/
def Obligations.PhaseAdvancesLinearly : Prop :=
  ∀ (l : List Instr) (s : State),
    s.incSet = true → (∀ i ∈ l, i.wellFormed = true ∧ i.writesInc = false) →
    ∃ t, execAll l s = .next t ∧ t.phaseInc = s.phaseInc ∧
      t.phase.toNat = (s.phase.toNat + l.countP Instr.advances * s.phaseInc.toNat) % 2 ^ 32

/-- ATINDEX `i` and ATINDEX `(i + L) mod 2^32` answer the same (rule R86). -/
def Obligations.AtindexIsPeriodicInTheTableLength : Prop :=
  ∀ (p : Port) (i : Word) (s : State), s.cfg.valid = true →
    exec (.atindex p (BitVec.ofNat 32 (i.toNat + 2 ^ s.cfg.k))) s = exec (.atindex p i) s

/-- The modulated phase is the advanced phase plus the operand shifted left by `k`, modulo `2^32` (rule R82). -/
def Obligations.ModulationIsAShiftOfTheOperand : Prop :=
  ∀ (k : Nat) (phase m : Word), modulatedPhase k phase m = phase + (m <<< k)

/-- Whole traversals in the modulation do not move the index (rule R82, corner cases): `m` and `m + n * 2^16` answer
the same, so any `m` outside -1..+1 wraps consistently. -/
def Obligations.WholeTraversalsDoNotMoveTheSample : Prop :=
  ∀ (m n : Word) (s : State), s.cfg.valid = true →
    exec (.phmod .P (m + n * 0x00010000#32)) s = exec (.phmod .P m) s

/-- The table index (00_scope.md rule R15): `(p >> F_BITS) & (L - 1)` is the bit field `p[F_BITS+k-1 : F_BITS]`, and 0
when `k = 0`. -/
def Obligations.TableIndexIsTheBitField : Prop :=
  ∀ (k : Nat) (p : Word), k ≤ 16 →
    phaseIndex k p = (p.toNat / 2 ^ 16) &&& (2 ^ k - 1) ∧ phaseIndex k p = (p.extractLsb' 16 k).toNat ∧
      (k = 0 → phaseIndex k p = 0)

/-- No command reads outside the table (20_memory.md rule R45): with another memory that agrees at the offsets
`0 .. L - 1` it does the same; a NaN's free value is the same draw in both (log entry 9). -/
def Obligations.NoCommandReadsOutsideTheTable : Prop :=
  ∀ (i : Instr) (s t : State) (m : Memory),
    (∀ off, off < 2 ^ s.cfg.k → Memory.read m off = tableRead s off) → exec i s = .next t →
    exec i { s with cfg := { s.cfg with table := m } } = .next { t with cfg := { t.cfg with table := m } }

/-! ### Frequency control -/

/-- SETFREQ.N8 (41_frequency_control.md rules R101, R102), in natural-number arithmetic. -/
def Obligations.SetfreqN8StoresTheFlooredQuotient : Prop :=
  ∀ (p : Port) (f : Word) (s : State),
    ∃ t, exec (.setfreqN8 p f) s = .next t ∧
      t.phaseInc.toNat = f.toNat * 2 ^ s.cfg.k * 2 ^ 8 / s.cfg.r % 2 ^ 32 ∧ t.incSet = true ∧ t.phase = s.phase ∧
      (t.port p).responses = (s.port p).responses ++ [0]

/-- SETFREQ.U (rules R101, R103), in natural-number arithmetic. -/
def Obligations.SetfreqUStoresTheFlooredQuotient : Prop :=
  ∀ (p : Port) (f : Word) (s : State),
    ∃ t, exec (.setfreqU p f) s = .next t ∧
      t.phaseInc.toNat = f.toNat * 2 ^ s.cfg.k * 2 ^ 16 / s.cfg.r % 2 ^ 32 ∧ t.incSet = true ∧ t.phase = s.phase ∧
      (t.port p).responses = (s.port p).responses ++ [0]

/-- SETFREQ.F of a finite frequency (rules R104 to R107), against the rational value of the operand: the model computes
in integers, and this says it is the rational the rules write, rounded half away from zero and reduced modulo `2^32`. -/
def Obligations.SetfreqFStoresTheRoundedRational : Prop :=
  ∀ (p : Port) (F : Word) (s : State), floatExponent F ≠ 255 → s.cfg.valid = true →
    ∃ t, exec (.setfreqF p F) s = .next t ∧
      (t.phaseInc.toNat : Int) = roundHalfAway (floatValue F * 2 ^ s.cfg.k * 2 ^ 16 / (s.cfg.r : Rat)) % 2 ^ 32 ∧
      t.incSet = true ∧ t.phase = s.phase ∧ (t.port p).responses = (s.port p).responses ++ [0]

/-- SETFREQ.F of a NaN or an infinity (rule R108) completes: some increment is stored, INC_SET becomes 1 and the
acknowledgement 0 is returned (rule R101). Nothing is said of the value: it is the free value of log entry 9. That the
draw counter goes up by one is that entry's too, the model's choice and no rule of the spec. -/
def Obligations.SetfreqFOfNanStoresSomeIncrement : Prop :=
  ∀ (p : Port) (F : Word) (s : State), floatExponent F = 255 →
    ∃ v : Word, exec (.setfreqF p F) s = .next (({ s with draws := s.draws + 1 }.setInc v).respond p 0)

/-- PHINC (rule R109): the increment SETFREQ.U would store is the response, and nothing is stored. -/
def Obligations.PhincAnswersWithoutStoring : Prop :=
  ∀ (p : Port) (f : Word) (s : State),
    ∃ v : Word, exec (.phinc p f) s = .next (s.respond p v) ∧
      v.toNat = f.toNat * 2 ^ s.cfg.k * 2 ^ 16 / s.cfg.r % 2 ^ 32 ∧ exec (.setinc p v) s = exec (.setfreqU p f) s

/-- SETINC (rules R101, R110): every 32-bit value is stored as given. -/
def Obligations.SetincStoresTheValueGiven : Prop :=
  ∀ (p : Port) (v : Word) (s : State),
    exec (.setinc p v) s = .next ({ s with phaseInc := v, incSet := true }.respond p 0)

/-- A Q24n8 frequency that is a whole number of Hz stores what SETFREQ.U of that number stores. -/
def Obligations.WholeHertzAgreeInBothIntegerSetters : Prop :=
  ∀ (p : Port) (f : Word) (s : State), f.toNat < 2 ^ 24 →
    exec (.setfreqN8 p (f <<< 8)) s = exec (.setfreqU p f) s

/-- The integer numerators fit 64 bits (rule R100), so the exact quotient is computed with no intermediate wrap. -/
def Obligations.IntegerNumeratorsFitSixtyFourBits : Prop :=
  ∀ (k : Nat) (f : Word), k ≤ 16 → hertzNumerator k f < 2 ^ 64 ∧ q24n8Numerator k f < 2 ^ 64

/-- Increment correctness (rule R111): without a wrap the stored increment is within one unit of the exact rational, and
within half a unit for a non-negative finite float frequency. -/
def Obligations.IncrementsAreWithinOneUnit : Prop :=
  ∀ cfg : Configuration, cfg.valid = true →
    (∀ f : Word, hertzOverflows cfg f = false →
      0 ≤ (f.toNat : Rat) * 2 ^ cfg.k * 2 ^ 16 / cfg.r - (hertzInc cfg f).toNat ∧
        (f.toNat : Rat) * 2 ^ cfg.k * 2 ^ 16 / cfg.r - (hertzInc cfg f).toNat < 1) ∧
    (∀ f : Word, q24n8Overflows cfg f = false →
      0 ≤ (f.toNat : Rat) / 256 * 2 ^ cfg.k * 2 ^ 16 / cfg.r - (q24n8Inc cfg f).toNat ∧
        (f.toNat : Rat) / 256 * 2 ^ cfg.k * 2 ^ 16 / cfg.r - (q24n8Inc cfg f).toNat < 1) ∧
    ∀ F : Word, floatExponent F ≠ 255 → 0 ≤ floatValue F → floatOverflows cfg F = false →
      |floatValue F * 2 ^ cfg.k * 2 ^ 16 / cfg.r - (floatInc cfg F).toNat| ≤ 1 / 2

/-- Overflow (rule R112): the exact quotient reaches `2^32` exactly at the stated thresholds, and the setters and PHINC
then complete like at any other operand, with the value modulo `2^32`. -/
def Obligations.OverflowWrapsAtTheStatedThresholds : Prop :=
  ∀ s : State, s.cfg.valid = true → ∀ (p : Port) (f : Word),
    (2 ^ 32 ≤ f.toNat * 2 ^ s.cfg.k * 2 ^ 16 / s.cfg.r ↔ s.cfg.r * 2 ^ 16 ≤ f.toNat * 2 ^ s.cfg.k) ∧
    (2 ^ 32 ≤ f.toNat * 2 ^ s.cfg.k * 2 ^ 8 / s.cfg.r ↔ s.cfg.r * 2 ^ 24 ≤ f.toNat * 2 ^ s.cfg.k) ∧
    exec (.setfreqU p f) s =
      .next ((s.setInc (BitVec.ofNat 32 (f.toNat * 2 ^ s.cfg.k * 2 ^ 16 / s.cfg.r))).respond p 0) ∧
    exec (.setfreqN8 p f) s =
      .next ((s.setInc (BitVec.ofNat 32 (f.toNat * 2 ^ s.cfg.k * 2 ^ 8 / s.cfg.r))).respond p 0) ∧
    exec (.phinc p f) s =
      .next (s.respond p (BitVec.ofNat 32 (f.toNat * 2 ^ s.cfg.k * 2 ^ 16 / s.cfg.r)))

/-- Every subnormal float frequency, and either zero, stores 0 (rule R104, corner cases; 90_conflicts.md C4). -/
def Obligations.SubnormalFrequenciesStoreZero : Prop :=
  ∀ (p : Port) (F : Word) (s : State), floatExponent F = 0 → s.cfg.valid = true →
    exec (.setfreqF p F) s = .next ((s.setInc 0).respond p 0)

/-- A float frequency with its sign inverted stores the two's complement (rule R107): the phase runs backward. -/
def Obligations.NegatedFrequencyStoresTheTwosComplement : Prop :=
  ∀ (p : Port) (F : Word) (s : State), floatExponent F ≠ 255 →
    ∃ t u, exec (.setfreqF p F) s = .next t ∧ exec (.setfreqF p (F ^^^ 0x80000000#32)) s = .next u ∧
      u.phaseInc = -t.phaseInc

/-- `round_half_away` (rule R106) is `sign(y) * floor(|y| + 1/2)`, the nearest integer, and of two equally near the one
farther from zero; with the rule's three examples. -/
def Obligations.RoundHalfAwayIsNearest : Prop :=
  (∀ y : Rat, roundHalfAway y = y.num.sign * ⌊|y| + 1 / 2⌋ ∧
    |y - (roundHalfAway y : Rat)| ≤ 1 / 2 ∧
    (|y - (roundHalfAway y : Rat)| = 1 / 2 → |y| < |(roundHalfAway y : Rat)|)) ∧
  roundHalfAway (1 / 2) = 1 ∧ roundHalfAway (3 / 2) = 2 ∧ roundHalfAway (-1 / 2) = -1

/-! ### Completion, faults and refusals -/

/-- Every command on a port that accepts it completes, NEXT and PHMOD with an increment written, and returns exactly one
response, on the port that issued it (60_exceptions.md rule R130; 10_state.md rule R32). -/
def Obligations.AcceptedCommandsCompleteWithOneResponse : Prop :=
  ∀ (i : Instr) (s : State), i.wellFormed = true → (i.advances = true → s.incSet = true) →
    ∃ t v, exec i s = .next t ∧
      t.port i.port = { command := (s.port i.port).command, responses := (s.port i.port).responses ++ [v] } ∧
      ∀ q, q ≠ i.port → t.port q = s.port q

/-- The one fault, the row of rule R132's table (60_exceptions.md; 40_sample_generation.md rule R80): NEXT or PHMOD while
INC_SET = 0; nothing else faults. It is on port P only because the port is checked before the fault (rule R135). -/
def Obligations.OnlyAnUnsetIncrementFaults : Prop :=
  ∀ (i : Instr) (s : State) (r : Fault),
    exec i s = .fault r ↔
      r = .incrementUnset ∧ s.incSet = false ∧ (i = .next .P ∨ ∃ m, i = .phmod .P m)

/-- A command is refused by its meaning only for its port. -/
def Obligations.OnlyTheWrongPortIsRefused : Prop :=
  ∀ (i : Instr) (s : State) (r : Refusal), exec i s = .refused r ↔ r = .wrongPort ∧ i.wellFormed = false

/-- The host's preconditions (70_reset_and_hazards.md rule R153) are exactly what a sequence of commands needs to be
performed to its end. -/
def Obligations.ReadySequencesAreExactlyThoseThatComplete : Prop :=
  ∀ (l : List Instr) (s : State), (∃ t, execAll l s = .next t) ↔ readyFrom s.incSet l = true

/-! ### Frames and whole-machine rules -/

/-- What NEXT and PHMOD leave unchanged: everything but PHASE and the response on port P. -/
def Obligations.FrameOfNextAndPhmod : Prop :=
  ∀ (i : Instr) (s t : State), i.advances = true → exec i s = .next t →
    t.phaseInc = s.phaseInc ∧ t.incSet = s.incSet ∧ t.cfg = s.cfg ∧ t.portC = s.portC ∧
      t.portP.command = s.portP.command ∧ t.host = s.host ∧ t.draws = s.draws ∧ t.stream = s.stream ∧
      ∀ off, tableRead t off = tableRead s off

/-- What ATINDEX and PHINC leave unchanged: everything but the response on the port that issued them. -/
def Obligations.FrameOfAtindexAndPhinc : Prop :=
  ∀ (i : Instr) (s t : State), i.advances = false → i.writesInc = false → exec i s = .next t →
    t.phase = s.phase ∧ t.phaseInc = s.phaseInc ∧ t.incSet = s.incSet ∧ t.cfg = s.cfg ∧ t.host = s.host ∧
      t.draws = s.draws ∧ t.stream = s.stream ∧ (t.port i.port).command = (s.port i.port).command ∧
      (∀ q, q ≠ i.port → t.port q = s.port q) ∧ ∀ off, tableRead t off = tableRead s off

/-- What SETFREQ.N8, SETFREQ.U, SETFREQ.F and SETINC leave unchanged: everything but PHASE_INC, INC_SET and the response
on the port that issued them; the model's draw counter too, but for SETFREQ.F of a NaN or an infinity. -/
def Obligations.FrameOfTheIncrementWriters : Prop :=
  ∀ (i : Instr) (s t : State), i.writesInc = true → exec i s = .next t →
    t.phase = s.phase ∧ t.cfg = s.cfg ∧ t.host = s.host ∧ t.stream = s.stream ∧
      (t.port i.port).command = (s.port i.port).command ∧ (∀ q, q ≠ i.port → t.port q = s.port q) ∧
      (∀ off, tableRead t off = tableRead s off) ∧
      ((∀ F, i = .setfreqF i.port F → floatExponent F ≠ 255) → t.draws = s.draws)

/-- PHASE moves only when port P's NEXT or PHMOD is performed, and then by PHASE_INC, or when the block is constructed
again (10_state.md rule R22). -/
def Obligations.OnlyProducerCommandsMoveThePhase : Prop :=
  ∀ s t : State, step s = .next t → t.phase ≠ s.phase →
    (∃ w i, s.portP.command = some w ∧ decode .P w = .ok i ∧ i.advances = true ∧ t.phase = s.phase + s.phaseInc) ∨
      (s.portsIdle = true ∧ t.phase = 0 ∧ ∃ k r cells rest, s.host = .construct k r cells :: rest)

/-- PHASE_INC and INC_SET change only when one of the four writers is performed, which sets INC_SET, or when the block is
constructed again, which alone clears it (10_state.md rules R23, R25). -/
def Obligations.OnlyTheFourWritersChangeTheIncrement : Prop :=
  ∀ s t : State, step s = .next t → (t.phaseInc ≠ s.phaseInc ∨ t.incSet ≠ s.incSet) →
    (t.incSet = true ∧ ∃ p w i, (s.port p).command = some w ∧ decode p w = .ok i ∧ i.writesInc = true) ∨
      (t.incSet = false ∧ s.portsIdle = true ∧ ∃ k r cells rest, s.host = .construct k r cells :: rest)

/-- The configuration, the table with it, changes only when the block is constructed again (10_state.md rule R29;
20_memory.md rule R48). -/
def Obligations.OnlyConstructionChangesTheConfiguration : Prop :=
  ∀ s t : State, step s = .next t → t.cfg ≠ s.cfg →
    s.portsIdle = true ∧ ∃ k r cells rest, s.host = .construct k r cells :: rest

/-- PHASE is seen only through the samples NEXT and PHMOD return (10_state.md rule R35): any other command does the same
whatever PHASE holds, and leaves it; a NaN's free value is the same draw in both (log entry 9). -/
def Obligations.PhaseIsSeenOnlyThroughSamples : Prop :=
  ∀ (i : Instr) (s : State) (x : Word), i.advances = false →
    ∃ t, exec i s = .next t ∧ exec i (s.setPhase x) = .next (t.setPhase x)

/-- PHASE_INC and INC_SET are read only by NEXT and PHMOD (10_state.md rule R23): ATINDEX and PHINC do the same whatever
they hold, and the four writers leave the same state whatever they held; a NaN's free value is the same draw in both (log
entry 9). -/
def Obligations.TheIncrementIsReadOnlyByNextAndPhmod : Prop :=
  ∀ (i : Instr) (s : State) (x : Word) (b : Bool), i.advances = false →
    ∃ t, exec i s = .next t ∧
      exec i { s with phaseInc := x, incSet := b } =
        .next (if i.writesInc then t else { t with phaseInc := x, incSet := b })

/-! ### Construction, reset and the invariant -/

/-- Construction (70_reset_and_hazards.md rule R150), from any state between commands: a configuration outside the
ranges is refused; a valid one is bound, with every table, PHASE is 0, INC_SET is 0 and the ports are idle. PHASE_INC has
no value: whatever stands in the field, NEXT and PHMOD fault until an increment is written (rule R132). The model's
choices in it, no rules of the spec: that a construction is a move of the host's list, made while both ports are idle and
leaving the rest of the list (log entries 6 and 7); the table as cells (log entry 12); the emptied responses and the list
kept (log entry 13). -/
def Obligations.ConstructionBindsTheConfiguration : Prop :=
  ∀ (s : State) (k r : Nat) (rest : List HostEvent), s.portsIdle = true →
    (∀ cells, s.host = .construct k r cells :: rest → ¬(0 ≤ k ∧ k ≤ 16 ∧ 1 ≤ r ∧ r ≤ 2 ^ 32 - 1) →
      step s = .refused .invalidConfiguration) ∧
    ∀ T : Nat → Byte, s.host = .construct k r ((List.range (2 ^ k)).map fun off => (off, T off)) :: rest →
      k ≤ 16 → 1 ≤ r → r ≤ 2 ^ 32 - 1 →
      ∃ t, step s = .next t ∧ t.cfg.k = k ∧ t.cfg.r = r ∧ (∀ off, off < 2 ^ k → tableRead t off = T off) ∧
        t.phase = 0 ∧ t.incSet = false ∧ t.portP = PortState.idle ∧ t.portC = PortState.idle ∧ t.host = rest ∧
        exec (.next .P) t = .fault .incrementUnset ∧ ∀ m, exec (.phmod .P m) t = .fault .incrementUnset

/-- The reset state (10_state.md rule R34), where the spec gives the value: PHASE is 0, INC_SET is 0, both ports are idle
with no response. Nothing is said of PHASE_INC or of the configuration, which log entries 1 and 4 choose. -/
def Obligations.ResetLeavesPhaseZeroAndPortsIdle : Prop :=
  State.reset.phase = 0 ∧ State.reset.incSet = false ∧ State.reset.portP = PortState.idle ∧
    State.reset.portC = PortState.idle

/-- The invariant holds at reset. -/
def Obligations.ResetMeetsTheInvariant : Prop :=
  Inv State.reset

/-- Every step keeps the invariant: a valid configuration, a table in canonical form inside the wavetable space, and
PHASE still 0 while no increment has been written. -/
def Obligations.EveryStepKeepsTheInvariant : Prop :=
  ∀ s t : State, Inv s → step s = .next t → Inv t

/-! ### Assembler and instances -/

/-- A line that assembles names a command the decoder does not call reserved, on the line's port or on port P where it
names none (30_encoding.md rule R66); only the port may still be refused. -/
def Obligations.AssembledLinesAreCommands : Prop :=
  ∀ (l : AsmLine) (p : Port) (w : CommandWord), assemble l = some (p, w) →
    p = l.port.getD .P ∧ decode p w ≠ .reservedEncoding ∧ (p = .P → ∃ i, decode p w = .ok i ∧ encode i = w)

/-- A float literal assembles to a nearest binary32 value (30_encoding.md rule R66): where the result is finite, no
finite pattern is nearer to the literal's value. -/
def Obligations.FloatLiteralIsNearest : Prop :=
  ∀ (negative : Bool) (digits : Nat) (exp10 : Int) (F : Word),
    floatExponent (floatLiteral negative digits exp10) ≠ 255 → floatExponent F ≠ 255 →
    |floatValue (floatLiteral negative digits exp10) -
        (if negative then -1 else 1) * (digits : Rat) * (10 : Rat) ^ exp10| ≤
      |floatValue F - (if negative then -1 else 1) * (digits : Rat) * (10 : Rat) ^ exp10|

/-- A step of one instance leaves every other instance's state as it was (60_exceptions.md rule R142). That instances are
a list is the model's choice (log entry 20). -/
def Obligations.InstancesShareNothing : Prop :=
  ∀ (l l' : List State) (j n : Nat), stepInstance l j = some l' → n ≠ j → l'[n]? = l[n]?

/-- What an instance does depends on no other instance (60_exceptions.md rule R142): in any list in which the instance at a
position is the same, its step leaves the same at that position. The list is the model's (log entry 20), and so is the
stream of free values that the position selects (log entry 21). -/
def Obligations.InstancesReadNothingOfEachOther : Prop :=
  ∀ (l m l' : List State) (j : Nat), l[j]? = m[j]? → stepInstance l j = some l' →
    ∃ m', stepInstance m j = some m' ∧ m'[j]? = l'[j]?

/-- The increment an instance stores for a NaN or an infinity is a draw from that instance's own stream, whatever streams
the states of the list carry: two instances never draw at one argument of the free value (60_exceptions.md rule R142;
41_frequency_control.md rule R108). Nothing is said of the value. The streams and the counter are the model's choice (log
entries 9 and 21). -/
def Obligations.InstancesDrawFromTheirOwnStreams : Prop :=
  ∀ (l : List State) (s : State) (j : Nat) (p q : Port) (F : Word),
    l[j]? = some s → p ≠ q → (s.port p).command = some (encode (.setfreqF p F)) → (s.port q).command = none →
    floatExponent F = 255 →
    ∃ l' t, stepInstance l j = some l' ∧ l'[j]? = some t ∧ t.phaseInc = Config.nanInc j s.draws ∧ t.incSet = true ∧
      t.stream = j ∧ t.draws = s.draws + 1

/-- No step changes the stream an instance draws its free values from: the model's own field (log entry 21). -/
def Obligations.EveryStepKeepsTheStream : Prop :=
  ∀ s t : State, step s = .next t → t.stream = s.stream
end

