-- ==== Sys2Proof/Laws/PerInstr.lean ====
section
/-! SUPPORT. What holds of every command as syntax: the two fields of its word are its opcode and its operand, and its
opcode is one of the map's (30_encoding.md rules R60, R62). -/

namespace Sys2Proof.Laws

/-- The fields of a command's word (rule R60). -/
def EncodedFields.Statement (i : Instr) : Prop :=
  opField (encode i) = opcodeOf i ∧ operandField (encode i) = operandOf i

/-- The fields of any word put together from an opcode and an operand. -/
theorem opField_append (op : BitVec 8) (v : Word) : opField (op ++ v) = op := by
  exact BitVec.extractLsb'_append_eq_left (a := op) (b := v)

theorem operandField_append (op : BitVec 8) (v : Word) : operandField (op ++ v) = v := by
  exact BitVec.extractLsb'_append_eq_right (a := op) (b := v)

theorem EncodedFields.of (i : Instr) : EncodedFields.Statement i :=
  ⟨opField_append _ _, operandField_append _ _⟩

theorem EncodedFields.next (p : Port) : EncodedFields.Statement (.next p) := EncodedFields.of _
theorem EncodedFields.phmod (p : Port) (m : Word) : EncodedFields.Statement (.phmod p m) := EncodedFields.of _
theorem EncodedFields.atindex (p : Port) (i : Word) : EncodedFields.Statement (.atindex p i) := EncodedFields.of _
theorem EncodedFields.setfreqN8 (p : Port) (f : Word) : EncodedFields.Statement (.setfreqN8 p f) := EncodedFields.of _
theorem EncodedFields.setfreqU (p : Port) (f : Word) : EncodedFields.Statement (.setfreqU p f) := EncodedFields.of _
theorem EncodedFields.setfreqF (p : Port) (f : Word) : EncodedFields.Statement (.setfreqF p f) := EncodedFields.of _
theorem EncodedFields.phinc (p : Port) (f : Word) : EncodedFields.Statement (.phinc p f) := EncodedFields.of _
theorem EncodedFields.setinc (p : Port) (v : Word) : EncodedFields.Statement (.setinc p v) := EncodedFields.of _

end Sys2Proof.Laws
end

