-- ==== Sys2Proof/Laws/Decode.lean ====
section
/-! SUPPORT. The two fields of a command word as numbers, and the word as its fields. -/

namespace Sys2Proof

/-- `OP` is the word's quotient by `2^32`. -/
theorem opField_toNat (w : CommandWord) : (opField w).toNat = w.toNat / 2 ^ 32 := by
  have := w.isLt
  simp only [opField, BitVec.extractLsb'_toNat, Nat.shiftRight_eq_div_pow]
  omega

/-- `OPERAND` is the word's remainder. -/
theorem operandField_toNat (w : CommandWord) : (operandField w).toNat = w.toNat % 2 ^ 32 := by
  simp [operandField, BitVec.extractLsb'_toNat]

/-- A word is its two fields put together. -/
theorem word_eq_fields (w : CommandWord) : w = opField w ++ operandField w := by
  apply BitVec.eq_of_toNat_eq
  refine Eq.trans ?_ (BitVec.toNat_append (opField w) (operandField w)).symm
  rw [opField_toNat, operandField_toNat, ← Nat.shiftLeft_add_eq_or_of_lt (Nat.mod_lt _ (by decide)), Nat.shiftLeft_eq]
  omega

/-- The port check passes only port P. -/
theorem onProducerPort_eq_ok {p : Port} {i j : Instr} : onProducerPort p i = .ok j ↔ p = .P ∧ j = i := by
  cases p <;> simp [onProducerPort, @eq_comm _ i]

end Sys2Proof
end

