-- ==== Sys2Proof/Laws/Memory.lean ====
section
/-! SUPPORT. The laws of the table's bytes: a read after a write, and the canonical form that every operation keeps. -/

namespace Sys2Proof.Machine

@[simp] theorem Memory.read_nil (a : Nat) : Memory.read [] a = Memory.unlisted := rfl

/-- Below every listed offset nothing is listed. -/
theorem Memory.read_below (m : Memory) (a : Nat) (h : ∀ c ∈ m, a < c.1) : Memory.read m a = Memory.unlisted := by
  induction m with
  | nil => rfl
  | cons c m ih =>
    obtain ⟨x, b⟩ := c
    have hx : a < x := h (x, b) (by simp)
    have hm : ∀ c ∈ m, a < c.1 := fun c hc => h c (by simp [hc])
    simp [Memory.read, ih hm, Nat.ne_of_gt hx]

/-- A cell of the written memory is the written one or was there before. -/
theorem Memory.mem_write {m : Memory} {a : Nat} {b : Byte} {c : Host.Cell} (h : c ∈ Memory.write m a b) :
    c = (a, b) ∨ c ∈ m := by
  induction m with
  | nil =>
    by_cases hb : b = Memory.unlisted
    · simp [Memory.write, hb] at h
    · simp only [Memory.write, hb, if_false, List.mem_singleton] at h
      exact .inl h
  | cons d m ih =>
    obtain ⟨x, e⟩ := d
    simp only [Memory.write] at h
    split at h
    · split at h
      · exact .inr h
      · simpa using h
    · split at h
      · split at h
        · exact .inr (by simp [h])
        · rcases List.mem_cons.mp h with h | h
          · exact .inl h
          · exact .inr (by simp [h])
      · rcases List.mem_cons.mp h with h | h
        · exact .inr (by simp [h])
        · rcases ih h with h | h
          · exact .inl h
          · exact .inr (by simp [h])

/-- A write keeps the canonical form. -/
theorem Memory.write_keeps_wf (m : Memory) (a : Nat) (b : Byte) (h : Memory.wf m) : Memory.wf (Memory.write m a b) := by
  induction m with
  | nil =>
    by_cases hb : b = Memory.unlisted
    · simpa [Memory.write, hb] using h
    · simp [Memory.write, Memory.wf, hb]
  | cons d m ih =>
    obtain ⟨x, e⟩ := d
    obtain ⟨hp, hn⟩ := h
    rw [List.pairwise_cons] at hp
    have hm : Memory.wf m := ⟨hp.2, fun c hc => hn c (by simp [hc])⟩
    simp only [Memory.write]
    split
    · rename_i hax
      split
      · exact ⟨List.pairwise_cons.mpr hp, hn⟩
      · rename_i hb
        refine ⟨List.pairwise_cons.mpr ⟨?_, List.pairwise_cons.mpr hp⟩, ?_⟩
        · intro c hc
          rcases List.mem_cons.mp hc with rfl | hc
          · exact hax
          · exact Nat.lt_trans hax (hp.1 c hc)
        · intro c hc
          rcases List.mem_cons.mp hc with rfl | hc
          · exact hb
          · exact hn c hc
    · split
      · rename_i _ hax
        subst hax
        split
        · exact hm
        · rename_i hb
          refine ⟨List.pairwise_cons.mpr hp, ?_⟩
          intro c hc
          rcases List.mem_cons.mp hc with rfl | hc
          · exact hb
          · exact hm.2 c hc
      · rename_i h1 h2
        have ih := ih hm
        refine ⟨List.pairwise_cons.mpr ⟨?_, ih.1⟩, ?_⟩
        · intro c hc
          rcases Memory.mem_write hc with rfl | hc
          · show x < a
            omega
          · exact hp.1 c hc
        · intro c hc
          rcases List.mem_cons.mp hc with rfl | hc
          · exact hn _ (by simp)
          · exact ih.2 c hc

/-- The byte just written is read back. -/
theorem Memory.read_write_same (m : Memory) (a : Nat) (b : Byte) (h : Memory.wf m) :
    Memory.read (Memory.write m a b) a = b := by
  induction m with
  | nil => by_cases hb : b = Memory.unlisted <;> simp [Memory.write, Memory.read, hb]
  | cons d m ih =>
    obtain ⟨x, e⟩ := d
    obtain ⟨hp, hn⟩ := h
    rw [List.pairwise_cons] at hp
    have hm : Memory.wf m := ⟨hp.2, fun c hc => hn c (by simp [hc])⟩
    simp only [Memory.write]
    split
    · rename_i hax
      split
      · rename_i hb
        rw [hb]
        refine Memory.read_below _ _ fun c hc => ?_
        rcases List.mem_cons.mp hc with rfl | hc
        · exact hax
        · exact Nat.lt_trans hax (hp.1 c hc)
      · simp [Memory.read]
    · split
      · rename_i _ hax
        subst hax
        split
        · rename_i hb
          rw [hb]
          exact Memory.read_below _ _ fun c hc => hp.1 c hc
        · simp [Memory.read]
      · rename_i h1 h2
        have : x ≠ a := fun hxa => h2 hxa.symm
        simp [Memory.read, this, ih hm]

/-- Every other byte reads as before. -/
theorem Memory.read_write_other (m : Memory) (a a' : Nat) (b : Byte) (h : a' ≠ a) (hm : Memory.wf m) :
    Memory.read (Memory.write m a b) a' = Memory.read m a' := by
  induction m with
  | nil => by_cases hb : b = Memory.unlisted <;> simp [Memory.write, Memory.read, hb, h.symm]
  | cons d m ih =>
    obtain ⟨x, e⟩ := d
    obtain ⟨hp, hn⟩ := hm
    rw [List.pairwise_cons] at hp
    have hm : Memory.wf m := ⟨hp.2, fun c hc => hn c (by simp [hc])⟩
    simp only [Memory.write]
    split
    · split
      · rfl
      · simp [Memory.read, h.symm]
    · split
      · rename_i _ hax
        subst hax
        split
        · simp [Memory.read, h.symm]
        · simp [Memory.read, h.symm]
      · simp [Memory.read, ih hm]

/-- A cell bound keeps the canonical form. -/
theorem Memory.bindCell_keeps_wf (k : Nat) (m : Memory) (c : Host.Cell) (h : Memory.wf m) :
    Memory.wf (Memory.bindCell k m c) := by
  unfold Memory.bindCell
  split
  · exact Memory.write_keeps_wf _ _ _ h
  · exact h

/-- A cell bound keeps every listed offset in the wavetable space. -/
theorem Memory.bindCell_keeps_space (k : Nat) (m : Memory) (c : Host.Cell) (h : ∀ d ∈ m, d.1 < 2 ^ k) :
    ∀ d ∈ Memory.bindCell k m c, d.1 < 2 ^ k := by
  intro d hd
  unfold Memory.bindCell at hd
  split at hd
  · rcases Memory.mem_write hd with rfl | hd
    · assumption
    · exact h d hd
  · exact h d hd

/-- What construction binds is in canonical form, whatever cells the host gives. -/
theorem Memory.bind_wf (k : Nat) (cells : List Host.Cell) : Memory.wf (Memory.bind k cells) := by
  unfold Memory.bind
  suffices ∀ m, Memory.wf m → Memory.wf (cells.foldl (Memory.bindCell k) m) from this [] ⟨.nil, by simp⟩
  induction cells with
  | nil => exact fun m h => h
  | cons c cells ih => exact fun m h => ih _ (Memory.bindCell_keeps_wf k m c h)

/-- What construction binds lies in the wavetable space (20_memory.md rule R40). -/
theorem Memory.bind_in_space (k : Nat) (cells : List Host.Cell) : ∀ c ∈ Memory.bind k cells, c.1 < 2 ^ k := by
  unfold Memory.bind
  suffices ∀ m : Memory, (∀ c ∈ m, c.1 < 2 ^ k) → ∀ c ∈ cells.foldl (Memory.bindCell k) m, c.1 < 2 ^ k from
    this [] (by simp)
  induction cells with
  | nil => exact fun m h => h
  | cons c cells ih => exact fun m h => ih _ (Memory.bindCell_keeps_space k m c h)

end Sys2Proof.Machine
end

