-- ==== Sys2Proof/Laws/State.lean ====
section
/-! SUPPORT. What each named update of the state and of a port leaves in each field, so that no later proof unfolds a record
update. -/

namespace Sys2Proof.Machine

@[simp] theorem State.setPhase_phase (s : State) (v : Word) : (s.setPhase v).phase = v := rfl
@[simp] theorem State.setPhase_phaseInc (s : State) (v : Word) : (s.setPhase v).phaseInc = s.phaseInc := rfl
@[simp] theorem State.setPhase_incSet (s : State) (v : Word) : (s.setPhase v).incSet = s.incSet := rfl
@[simp] theorem State.setPhase_cfg (s : State) (v : Word) : (s.setPhase v).cfg = s.cfg := rfl
@[simp] theorem State.setPhase_portP (s : State) (v : Word) : (s.setPhase v).portP = s.portP := rfl
@[simp] theorem State.setPhase_portC (s : State) (v : Word) : (s.setPhase v).portC = s.portC := rfl
@[simp] theorem State.setPhase_host (s : State) (v : Word) : (s.setPhase v).host = s.host := rfl
@[simp] theorem State.setPhase_draws (s : State) (v : Word) : (s.setPhase v).draws = s.draws := rfl
@[simp] theorem State.setPhase_stream (s : State) (v : Word) : (s.setPhase v).stream = s.stream := rfl

@[simp] theorem State.setInc_phase (s : State) (v : Word) : (s.setInc v).phase = s.phase := rfl
@[simp] theorem State.setInc_phaseInc (s : State) (v : Word) : (s.setInc v).phaseInc = v := rfl
@[simp] theorem State.setInc_incSet (s : State) (v : Word) : (s.setInc v).incSet = true := rfl
@[simp] theorem State.setInc_cfg (s : State) (v : Word) : (s.setInc v).cfg = s.cfg := rfl
@[simp] theorem State.setInc_portP (s : State) (v : Word) : (s.setInc v).portP = s.portP := rfl
@[simp] theorem State.setInc_portC (s : State) (v : Word) : (s.setInc v).portC = s.portC := rfl
@[simp] theorem State.setInc_host (s : State) (v : Word) : (s.setInc v).host = s.host := rfl
@[simp] theorem State.setInc_draws (s : State) (v : Word) : (s.setInc v).draws = s.draws := rfl
@[simp] theorem State.setInc_stream (s : State) (v : Word) : (s.setInc v).stream = s.stream := rfl

@[simp] theorem State.setHost_phase (s : State) (h : List HostEvent) : (s.setHost h).phase = s.phase := rfl
@[simp] theorem State.setHost_phaseInc (s : State) (h : List HostEvent) : (s.setHost h).phaseInc = s.phaseInc := rfl
@[simp] theorem State.setHost_incSet (s : State) (h : List HostEvent) : (s.setHost h).incSet = s.incSet := rfl
@[simp] theorem State.setHost_cfg (s : State) (h : List HostEvent) : (s.setHost h).cfg = s.cfg := rfl
@[simp] theorem State.setHost_portP (s : State) (h : List HostEvent) : (s.setHost h).portP = s.portP := rfl
@[simp] theorem State.setHost_portC (s : State) (h : List HostEvent) : (s.setHost h).portC = s.portC := rfl
@[simp] theorem State.setHost_host (s : State) (h : List HostEvent) : (s.setHost h).host = h := rfl
@[simp] theorem State.setHost_draws (s : State) (h : List HostEvent) : (s.setHost h).draws = s.draws := rfl
@[simp] theorem State.setHost_stream (s : State) (h : List HostEvent) : (s.setHost h).stream = s.stream := rfl

@[simp] theorem State.countDraw_phase (s : State) : (s.countDraw).phase = s.phase := rfl
@[simp] theorem State.countDraw_phaseInc (s : State) : (s.countDraw).phaseInc = s.phaseInc := rfl
@[simp] theorem State.countDraw_incSet (s : State) : (s.countDraw).incSet = s.incSet := rfl
@[simp] theorem State.countDraw_cfg (s : State) : (s.countDraw).cfg = s.cfg := rfl
@[simp] theorem State.countDraw_portP (s : State) : (s.countDraw).portP = s.portP := rfl
@[simp] theorem State.countDraw_portC (s : State) : (s.countDraw).portC = s.portC := rfl
@[simp] theorem State.countDraw_host (s : State) : (s.countDraw).host = s.host := rfl
@[simp] theorem State.countDraw_draws (s : State) : (s.countDraw).draws = s.draws + 1 := rfl
@[simp] theorem State.countDraw_stream (s : State) : (s.countDraw).stream = s.stream := rfl

@[simp] theorem State.onStream_phase (s : State) (j : Nat) : (s.onStream j).phase = s.phase := rfl
@[simp] theorem State.onStream_phaseInc (s : State) (j : Nat) : (s.onStream j).phaseInc = s.phaseInc := rfl
@[simp] theorem State.onStream_incSet (s : State) (j : Nat) : (s.onStream j).incSet = s.incSet := rfl
@[simp] theorem State.onStream_cfg (s : State) (j : Nat) : (s.onStream j).cfg = s.cfg := rfl
@[simp] theorem State.onStream_portP (s : State) (j : Nat) : (s.onStream j).portP = s.portP := rfl
@[simp] theorem State.onStream_portC (s : State) (j : Nat) : (s.onStream j).portC = s.portC := rfl
@[simp] theorem State.onStream_host (s : State) (j : Nat) : (s.onStream j).host = s.host := rfl
@[simp] theorem State.onStream_draws (s : State) (j : Nat) : (s.onStream j).draws = s.draws := rfl
@[simp] theorem State.onStream_stream (s : State) (j : Nat) : (s.onStream j).stream = j := rfl

@[simp] theorem State.setPort_phase (s : State) (p : Port) (ps : PortState) : (s.setPort p ps).phase = s.phase := by
  cases p <;> rfl
@[simp] theorem State.setPort_phaseInc (s : State) (p : Port) (ps : PortState) : (s.setPort p ps).phaseInc = s.phaseInc := by
  cases p <;> rfl
@[simp] theorem State.setPort_incSet (s : State) (p : Port) (ps : PortState) : (s.setPort p ps).incSet = s.incSet := by
  cases p <;> rfl
@[simp] theorem State.setPort_cfg (s : State) (p : Port) (ps : PortState) : (s.setPort p ps).cfg = s.cfg := by
  cases p <;> rfl
@[simp] theorem State.setPort_host (s : State) (p : Port) (ps : PortState) : (s.setPort p ps).host = s.host := by
  cases p <;> rfl
@[simp] theorem State.setPort_draws (s : State) (p : Port) (ps : PortState) : (s.setPort p ps).draws = s.draws := by
  cases p <;> rfl
@[simp] theorem State.setPort_stream (s : State) (p : Port) (ps : PortState) : (s.setPort p ps).stream = s.stream := by
  cases p <;> rfl
@[simp] theorem State.setPort_port (s : State) (p : Port) (ps : PortState) : (s.setPort p ps).port p = ps := by
  cases p <;> rfl
@[simp] theorem State.setPort_port_other (s : State) (p q : Port) (ps : PortState) (h : q ≠ p) :
    (s.setPort p ps).port q = s.port q := by
  cases p <;> cases q <;> first | rfl | exact absurd rfl h
@[simp] theorem State.setPort_P_portP (s : State) (ps : PortState) : (s.setPort .P ps).portP = ps := rfl
@[simp] theorem State.setPort_P_portC (s : State) (ps : PortState) : (s.setPort .P ps).portC = s.portC := rfl
@[simp] theorem State.port_P (s : State) : s.port .P = s.portP := rfl
@[simp] theorem State.setPort_C_portC (s : State) (ps : PortState) : (s.setPort .C ps).portC = ps := rfl
@[simp] theorem State.setPort_C_portP (s : State) (ps : PortState) : (s.setPort .C ps).portP = s.portP := rfl
@[simp] theorem State.port_C (s : State) : s.port .C = s.portC := rfl

@[simp] theorem State.setPhase_port (s : State) (v : Word) (p : Port) : (s.setPhase v).port p = s.port p := by
  cases p <;> rfl
@[simp] theorem State.setInc_port (s : State) (v : Word) (p : Port) : (s.setInc v).port p = s.port p := by
  cases p <;> rfl
@[simp] theorem State.setHost_port (s : State) (h : List HostEvent) (p : Port) : (s.setHost h).port p = s.port p := by
  cases p <;> rfl
@[simp] theorem State.countDraw_port (s : State) (p : Port) : (s.countDraw).port p = s.port p := by
  cases p <;> rfl
@[simp] theorem State.onStream_port (s : State) (j : Nat) (p : Port) : (s.onStream j).port p = s.port p := by
  cases p <;> rfl

@[simp] theorem State.takeCommand_phase (s : State) (p : Port) : (s.takeCommand p).phase = s.phase := by
  simp [State.takeCommand]
@[simp] theorem State.takeCommand_phaseInc (s : State) (p : Port) : (s.takeCommand p).phaseInc = s.phaseInc := by
  simp [State.takeCommand]
@[simp] theorem State.takeCommand_incSet (s : State) (p : Port) : (s.takeCommand p).incSet = s.incSet := by
  simp [State.takeCommand]
@[simp] theorem State.takeCommand_cfg (s : State) (p : Port) : (s.takeCommand p).cfg = s.cfg := by
  simp [State.takeCommand]
@[simp] theorem State.takeCommand_host (s : State) (p : Port) : (s.takeCommand p).host = s.host := by
  simp [State.takeCommand]
@[simp] theorem State.takeCommand_draws (s : State) (p : Port) : (s.takeCommand p).draws = s.draws := by
  simp [State.takeCommand]
@[simp] theorem State.takeCommand_stream (s : State) (p : Port) : (s.takeCommand p).stream = s.stream := by
  simp [State.takeCommand]

@[simp] theorem State.respond_phase (s : State) (p : Port) (v : Word) : (s.respond p v).phase = s.phase := by
  simp [State.respond]
@[simp] theorem State.respond_phaseInc (s : State) (p : Port) (v : Word) : (s.respond p v).phaseInc = s.phaseInc := by
  simp [State.respond]
@[simp] theorem State.respond_incSet (s : State) (p : Port) (v : Word) : (s.respond p v).incSet = s.incSet := by
  simp [State.respond]
@[simp] theorem State.respond_cfg (s : State) (p : Port) (v : Word) : (s.respond p v).cfg = s.cfg := by
  simp [State.respond]
@[simp] theorem State.respond_host (s : State) (p : Port) (v : Word) : (s.respond p v).host = s.host := by
  simp [State.respond]
@[simp] theorem State.respond_draws (s : State) (p : Port) (v : Word) : (s.respond p v).draws = s.draws := by
  simp [State.respond]
@[simp] theorem State.respond_stream (s : State) (p : Port) (v : Word) : (s.respond p v).stream = s.stream := by
  simp [State.respond]

@[simp] theorem State.present_phase (s : State) (onP onC : Option CommandWord) : (s.present onP onC).phase = s.phase := by
  simp [State.present]
@[simp] theorem State.present_phaseInc (s : State) (onP onC : Option CommandWord) : (s.present onP onC).phaseInc = s.phaseInc := by
  simp [State.present]
@[simp] theorem State.present_incSet (s : State) (onP onC : Option CommandWord) : (s.present onP onC).incSet = s.incSet := by
  simp [State.present]
@[simp] theorem State.present_cfg (s : State) (onP onC : Option CommandWord) : (s.present onP onC).cfg = s.cfg := by
  simp [State.present]
@[simp] theorem State.present_host (s : State) (onP onC : Option CommandWord) : (s.present onP onC).host = s.host := by
  simp [State.present]
@[simp] theorem State.present_draws (s : State) (onP onC : Option CommandWord) : (s.present onP onC).draws = s.draws := by
  simp [State.present]
@[simp] theorem State.present_stream (s : State) (onP onC : Option CommandWord) : (s.present onP onC).stream = s.stream := by
  simp [State.present]

@[simp] theorem State.presentOnP_phase (s : State) (w : CommandWord) : (s.presentOnP w).phase = s.phase := by
  simp [State.presentOnP]
@[simp] theorem State.presentOnP_phaseInc (s : State) (w : CommandWord) : (s.presentOnP w).phaseInc = s.phaseInc := by
  simp [State.presentOnP]
@[simp] theorem State.presentOnP_incSet (s : State) (w : CommandWord) : (s.presentOnP w).incSet = s.incSet := by
  simp [State.presentOnP]
@[simp] theorem State.presentOnP_cfg (s : State) (w : CommandWord) : (s.presentOnP w).cfg = s.cfg := by
  simp [State.presentOnP]
@[simp] theorem State.presentOnP_host (s : State) (w : CommandWord) : (s.presentOnP w).host = s.host := by
  simp [State.presentOnP]
@[simp] theorem State.presentOnP_draws (s : State) (w : CommandWord) : (s.presentOnP w).draws = s.draws := by
  simp [State.presentOnP]
@[simp] theorem State.presentOnP_stream (s : State) (w : CommandWord) : (s.presentOnP w).stream = s.stream := by
  simp [State.presentOnP]

@[simp] theorem State.takeCommand_port (s : State) (p : Port) : (s.takeCommand p).port p = (s.port p).taken := by
  simp [State.takeCommand]
@[simp] theorem State.takeCommand_port_other (s : State) (p q : Port) (h : q ≠ p) :
    (s.takeCommand p).port q = s.port q := by
  simp [State.takeCommand, h]
@[simp] theorem State.respond_port (s : State) (p : Port) (v : Word) :
    (s.respond p v).port p = (s.port p).responded v := by
  simp [State.respond]
@[simp] theorem State.respond_port_other (s : State) (p q : Port) (v : Word) (h : q ≠ p) :
    (s.respond p v).port q = s.port q := by
  simp [State.respond, h]
@[simp] theorem State.takeCommand_P_portP (s : State) : (s.takeCommand .P).portP = s.portP.taken := rfl
@[simp] theorem State.takeCommand_P_portC (s : State) : (s.takeCommand .P).portC = s.portC := rfl
@[simp] theorem State.respond_P_portP (s : State) (v : Word) : (s.respond .P v).portP = s.portP.responded v := rfl
@[simp] theorem State.respond_P_portC (s : State) (v : Word) : (s.respond .P v).portC = s.portC := rfl
@[simp] theorem State.takeCommand_C_portC (s : State) : (s.takeCommand .C).portC = s.portC.taken := rfl
@[simp] theorem State.takeCommand_C_portP (s : State) : (s.takeCommand .C).portP = s.portP := rfl
@[simp] theorem State.respond_C_portC (s : State) (v : Word) : (s.respond .C v).portC = s.portC.responded v := rfl
@[simp] theorem State.respond_C_portP (s : State) (v : Word) : (s.respond .C v).portP = s.portP := rfl
@[simp] theorem State.present_portP (s : State) (onP onC : Option CommandWord) :
    (s.present onP onC).portP = s.portP.presented onP := rfl
@[simp] theorem State.present_portC (s : State) (onP onC : Option CommandWord) :
    (s.present onP onC).portC = s.portC.presented onC := rfl
@[simp] theorem State.presentOnP_portP (s : State) (w : CommandWord) :
    (s.presentOnP w).portP = s.portP.presented (some w) := rfl
@[simp] theorem State.presentOnP_portC (s : State) (w : CommandWord) : (s.presentOnP w).portC = s.portC.taken := rfl

@[simp] theorem PortState.taken_command (ps : PortState) : ps.taken.command = none := rfl
@[simp] theorem PortState.taken_responses (ps : PortState) : ps.taken.responses = ps.responses := rfl
@[simp] theorem PortState.presented_none (ps : PortState) : ps.presented none = ps := rfl
@[simp] theorem PortState.presented_command (ps : PortState) (w : CommandWord) :
    (ps.presented (some w)).command = some w := rfl
@[simp] theorem PortState.presented_responses (ps : PortState) (o : Option CommandWord) :
    (ps.presented o).responses = ps.responses := by
  cases o <;> rfl
@[simp] theorem PortState.responded_command (ps : PortState) (v : Word) : (ps.responded v).command = ps.command := rfl
@[simp] theorem PortState.responded_responses (ps : PortState) (v : Word) :
    (ps.responded v).responses = ps.responses ++ [v] := rfl
@[simp] theorem PortState.idle_command : PortState.idle.command = none := rfl
@[simp] theorem PortState.idle_responses : PortState.idle.responses = [] := rfl

/-- Two states with equal fields are equal. -/
theorem State.eq_of_fields {s t : State} (h1 : s.phase = t.phase) (h2 : s.phaseInc = t.phaseInc)
    (h3 : s.incSet = t.incSet) (h4 : s.cfg = t.cfg) (h5 : s.portP = t.portP) (h6 : s.portC = t.portC)
    (h7 : s.host = t.host) (h8 : s.draws = t.draws) (h9 : s.stream = t.stream) : s = t := by
  cases s
  cases t
  simp_all

end Sys2Proof.Machine
end

