-- ==== Sys2Proof/Laws/Ops.lean ====
section
/-! SUPPORT. What each shared operation can do, once: later proofs cite these and do not unfold the operation. -/

namespace Sys2Proof.Machine

@[simp] theorem andThen_next (s : State) (f : State → Host.Outcome State Fault Refusal) : andThen (.next s) f = f s := rfl
@[simp] theorem andThen_fault (r : Fault) (f : State → Host.Outcome State Fault Refusal) :
    andThen (.fault r) f = .fault r := rfl
@[simp] theorem andThen_refused (r : Refusal) (f : State → Host.Outcome State Fault Refusal) :
    andThen (.refused r) f = .refused r := rfl

/-- A composition answers a next state exactly through an intermediate one. -/
theorem andThen_eq_next {o : Host.Outcome State Fault Refusal} {f : State → Host.Outcome State Fault Refusal} {t : State} :
    andThen o f = .next t ↔ ∃ s, o = .next s ∧ f s = .next t := by
  cases o <;> simp

@[simp] theorem producerOnly_P (s : State) : producerOnly .P s = .next s := rfl
@[simp] theorem producerOnly_C (s : State) : producerOnly .C s = .refused .wrongPort := rfl

/-- The port check passes only port P, and changes nothing. -/
theorem producerOnly_eq_next {p : Port} {s t : State} : producerOnly p s = .next t ↔ p = .P ∧ t = s := by
  cases p <;> simp [eq_comm]

/-- The advance goes on only with an increment written, and moves PHASE alone (rule R80). -/
theorem advance_eq_next {s t : State} :
    advance s = .next t ↔ s.incSet = true ∧ t = s.setPhase (s.phase + s.phaseInc) := by
  unfold advance
  split
  · exact ⟨fun h => ⟨‹_›, (Host.Outcome.next.inj h).symm⟩, fun h => by rw [h.2]⟩
  · exact ⟨fun h => by simp at h, fun h => absurd h.1 ‹_›⟩

theorem advance_of_set {s : State} (h : s.incSet = true) : advance s = .next (s.setPhase (s.phase + s.phaseInc)) :=
  advance_eq_next.mpr ⟨h, rfl⟩

theorem advance_of_unset {s : State} (h : s.incSet = false) : advance s = .fault .incrementUnset := by
  simp [advance, h]

@[simp] theorem respondSample_eq (p : Port) (off : Nat) (s : State) :
    respondSample p off s = .next (s.respond p ((tableRead s off).signExtend 32)) := rfl

@[simp] theorem writeInc_eq (p : Port) (v : Word) (s : State) : writeInc p v s = .next ((s.setInc v).respond p 0) := rfl

/-- Construction answers only for a configuration that has an instance. -/
theorem construct_eq_next {k r : Nat} {cells : List Host.Cell} {s t : State} :
    construct k r cells s = .next t ↔
      validConfig k r = true ∧
        t =
          { phase := 0
            phaseInc := 0
            incSet := false
            cfg := { k := k, r := r, table := Memory.bind k cells }
            portP := PortState.idle
            portC := PortState.idle
            host := s.host
            draws := s.draws
            stream := s.stream } := by
  unfold construct
  split
  · exact ⟨fun h => ⟨‹_›, (Host.Outcome.next.inj h).symm⟩, fun h => by rw [h.2]⟩
  · exact ⟨fun h => by simp at h, fun h => absurd h.1 ‹_›⟩

/-! ### The meanings, case by case -/

/-- NEXT answers only on port P with an increment written. -/
theorem execNext_eq_next {p : Port} {s t : State} :
    execNext p s = .next t ↔
      p = .P ∧ s.incSet = true ∧
        t =
          (s.setPhase (s.phase + s.phaseInc)).respond .P
            ((tableRead s (phaseIndex s.cfg.k (s.phase + s.phaseInc))).signExtend 32) := by
  cases p
  · simp only [execNext, producerOnly_P, andThen_next, andThen_eq_next, advance_eq_next, respondSample_eq, true_and]
    exact
      ⟨fun ⟨_, ⟨hs, hu⟩, ht⟩ => ⟨hs, by subst hu; exact (Host.Outcome.next.inj ht).symm⟩,
        fun ⟨hs, ht⟩ => ⟨_, ⟨hs, rfl⟩, by rw [ht]; rfl⟩⟩
  · simp [execNext]

/-- PHMOD answers only on port P with an increment written. -/
theorem execPhmod_eq_next {p : Port} {m : Word} {s t : State} :
    execPhmod p m s = .next t ↔
      p = .P ∧ s.incSet = true ∧
        t =
          (s.setPhase (s.phase + s.phaseInc)).respond .P
            ((tableRead s (phaseIndex s.cfg.k (modulatedPhase s.cfg.k (s.phase + s.phaseInc) m))).signExtend 32) := by
  cases p
  · simp only [execPhmod, producerOnly_P, andThen_next, andThen_eq_next, advance_eq_next, respondSample_eq, true_and]
    exact
      ⟨fun ⟨_, ⟨hs, hu⟩, ht⟩ => ⟨hs, by subst hu; exact (Host.Outcome.next.inj ht).symm⟩,
        fun ⟨hs, ht⟩ => ⟨_, ⟨hs, rfl⟩, by rw [ht]; rfl⟩⟩
  · simp [execPhmod]

/-- SETFREQ.F stores a draw or the rounded increment, and always answers. -/
theorem execSetfreqF_eq (p : Port) (f : Word) (s : State) :
    execSetfreqF p f s =
      .next
        (if floatIsSpecial f then (s.countDraw.setInc (Config.nanInc s.stream s.draws)).respond p 0
         else (s.setInc (floatInc s.cfg f)).respond p 0) := by
  unfold execSetfreqF
  split <;> simp

/-- What performing a presented word can answer. -/
theorem perform_eq_next {p : Port} {w : CommandWord} {s t : State} :
    perform p w s = .next t ↔ ∃ i, decode p w = .ok i ∧ exec i (s.takeCommand p) = .next t := by
  unfold perform
  cases h : decode p w <;> simp

/-- Everything one step can do, when it answers a next state: the block performs a presented word, or, with none
presented, the host moves. -/
theorem step_cases {s t : State} (h : step s = .next t) :
    (∃ p w s', (s.port p).command = some w ∧ (s' = s ∨ s' = s.countDraw) ∧ perform p w s' = .next t) ∨
      (s.portP.command = none ∧ s.portC.command = none ∧ hostMove s = .next t) := by
  unfold step move at h
  split at h
  · rename_i hP hC
    exact .inr ⟨hP, hC, h⟩
  · rename_i w hP hC
    exact .inl ⟨.P, w, s, hP, .inl rfl, h⟩
  · rename_i w hP hC
    exact .inl ⟨.C, w, s, hC, .inl rfl, h⟩
  · rename_i wP wC hP hC
    split at h
    · exact .inl ⟨.P, wP, s.countDraw, hP, .inr rfl, h⟩
    · exact .inl ⟨.C, wC, s.countDraw, hC, .inr rfl, h⟩

end Sys2Proof.Machine
end

