-- ==== Sys2Proof/Laws/Exec.lean ====
section
/-! SUPPORT. Everything one command can do, and everything one step can do, said once. -/

namespace Sys2Proof.Machine

/-- A command that does not advance the phase always completes. -/
theorem exec_completes {i : Instr} {s : State} (h : i.advances = false) : ∃ t, exec i s = .next t := by
  cases i with
  | next p => simp [Instr.advances] at h
  | phmod p m => simp [Instr.advances] at h
  | atindex p n => exact ⟨_, rfl⟩
  | setfreqN8 p f => exact ⟨_, rfl⟩
  | setfreqU p f => exact ⟨_, rfl⟩
  | setfreqF p f => exact ⟨_, execSetfreqF_eq _ _ _⟩
  | phinc p f => exact ⟨_, rfl⟩
  | setinc p v => exact ⟨_, rfl⟩

/-- The three shapes of a command that completes: the advance and a response on port P; an increment written and an
acknowledgement, after a draw only for a NaN or an infinity; or a response alone. -/
theorem exec_shape {i : Instr} {s t : State} (h : exec i s = .next t) :
    (i.advances = true ∧ i.port = .P ∧ s.incSet = true ∧
        ∃ v, t = (s.setPhase (s.phase + s.phaseInc)).respond .P v) ∨
      (i.advances = false ∧ i.writesInc = true ∧
        ∃ v s', (s' = s ∨ s' = s.countDraw ∧ ∃ F, i = .setfreqF i.port F ∧ floatExponent F = 255) ∧
          t = (s'.setInc v).respond i.port 0) ∨
      (i.advances = false ∧ i.writesInc = false ∧ ∃ v, t = s.respond i.port v) := by
  cases i with
  | next p =>
    obtain ⟨rfl, hs, rfl⟩ := execNext_eq_next.mp h
    exact .inl ⟨rfl, rfl, hs, _, rfl⟩
  | phmod p m =>
    obtain ⟨rfl, hs, rfl⟩ := execPhmod_eq_next.mp h
    exact .inl ⟨rfl, rfl, hs, _, rfl⟩
  | atindex p n => exact .inr (.inr ⟨rfl, rfl, _, (Host.Outcome.next.inj h).symm⟩)
  | setfreqN8 p f => exact .inr (.inl ⟨rfl, rfl, _, s, .inl rfl, (Host.Outcome.next.inj h).symm⟩)
  | setfreqU p f => exact .inr (.inl ⟨rfl, rfl, _, s, .inl rfl, (Host.Outcome.next.inj h).symm⟩)
  | setfreqF p f =>
    have ht := (Host.Outcome.next.inj ((execSetfreqF_eq p f s).symm.trans h)).symm
    split at ht
    · rename_i hf
      exact .inr (.inl ⟨rfl, rfl, _, s.countDraw, .inr ⟨rfl, f, rfl, by simpa [floatIsSpecial] using hf⟩, ht⟩)
    · exact .inr (.inl ⟨rfl, rfl, _, s, .inl rfl, ht⟩)
  | phinc p f => exact .inr (.inr ⟨rfl, rfl, _, (Host.Outcome.next.inj h).symm⟩)
  | setinc p v => exact .inr (.inl ⟨rfl, rfl, _, s, .inl rfl, (Host.Outcome.next.inj h).symm⟩)

/-- A command never changes the configuration. -/
theorem exec_keeps_cfg {i : Instr} {s t : State} (h : exec i s = .next t) : t.cfg = s.cfg := by
  rcases exec_shape h with ⟨_, _, _, v, rfl⟩ | ⟨_, _, v, s', rfl | ⟨rfl, _⟩, rfl⟩ | ⟨_, _, v, rfl⟩ <;> simp

/-- A command never touches the host's remaining interactions, -/
theorem exec_keeps_host {i : Instr} {s t : State} (h : exec i s = .next t) : t.host = s.host := by
  rcases exec_shape h with ⟨_, _, _, v, rfl⟩ | ⟨_, _, v, s', rfl | ⟨rfl, _⟩, rfl⟩ | ⟨_, _, v, rfl⟩ <;> simp

/-- and does the same whatever they are. -/
theorem exec_setHost (i : Instr) (s : State) (l : List HostEvent) :
    exec i (s.setHost l) = andThen (exec i s) fun t => .next (t.setHost l) := by
  cases i with
  | next p => cases p <;> cases hi : s.incSet <;> simp [exec, execNext, advance, hi] <;> rfl
  | phmod p m => cases p <;> cases hi : s.incSet <;> simp [exec, execPhmod, advance, hi] <;> rfl
  | atindex p n => cases p <;> rfl
  | setfreqN8 p f => cases p <;> rfl
  | setfreqU p f => cases p <;> rfl
  | setfreqF p f => cases p <;> simp only [exec, execSetfreqF] <;> split <;> rfl
  | phinc p f => cases p <;> rfl
  | setinc p v => cases p <;> rfl

/-- A command does the same whether or not the other port's command was taken before it. -/
theorem exec_takeCommand (i : Instr) (s : State) (q : Port) (hq : q ≠ i.port) :
    exec i (s.takeCommand q) = andThen (exec i s) fun t => .next (t.takeCommand q) := by
  cases i with
  | next p => cases p <;> cases q <;> cases hi : s.incSet <;> simp_all [exec, execNext, advance, Instr.port] <;> rfl
  | phmod p m => cases p <;> cases q <;> cases hi : s.incSet <;> simp_all [exec, execPhmod, advance, Instr.port] <;> rfl
  | atindex p n => cases p <;> cases q <;> simp_all [exec, execAtindex, Instr.port] <;> rfl
  | setfreqN8 p f => cases p <;> cases q <;> simp_all [exec, execSetfreqN8, Instr.port] <;> rfl
  | setfreqU p f => cases p <;> cases q <;> simp_all [exec, execSetfreqU, Instr.port] <;> rfl
  | setfreqF p f => cases p <;> cases q <;> simp_all only [exec, execSetfreqF, Instr.port] <;> split <;> simp_all <;> rfl
  | phinc p f => cases p <;> cases q <;> simp_all [exec, execPhinc, Instr.port] <;> rfl
  | setinc p v => cases p <;> cases q <;> simp_all [exec, execSetinc, Instr.port] <;> rfl

@[simp] theorem portsIdle_iff {s : State} :
    s.portsIdle = true ↔ s.portP.command = none ∧ s.portC.command = none := by
  simp [State.portsIdle]

/-- Everything the host's move can do, when it answers a next state. -/
theorem hostMove_cases {s t : State} (h : hostMove s = .next t) :
    t = s ∨ (∃ onP onC rest, s.host = .present onP onC :: rest ∧ t = (s.setHost rest).present onP onC) ∨
      ∃ k r cells rest, s.host = .construct k r cells :: rest ∧ construct k r cells (s.setHost rest) = .next t := by
  unfold hostMove at h
  split at h
  · exact .inl (Host.Outcome.next.inj h).symm
  · exact .inr (.inl ⟨_, _, _, ‹_›, (Host.Outcome.next.inj h).symm⟩)
  · exact .inr (.inr ⟨_, _, _, _, ‹_›, h⟩)

end Sys2Proof.Machine
end

