-- ==== Sys2Proof/Laws/Instances.lean ====
section
/-! SUPPORT. Everything a step of one instance in a list can do, said once. -/

namespace Sys2Proof.Machine

/-- A step of the instance at a position answers where the position holds none, with the list as it was, or where that
instance's own step, on its own stream of free values, answers. -/
theorem stepInstance_eq_some {l l' : List State} {j : Nat} :
    stepInstance l j = some l' ↔
      (l[j]? = none ∧ l' = l) ∨ ∃ s t, l[j]? = some s ∧ step (s.onStream j) = .next t ∧ l' = l.set j t := by
  cases hl : l[j]? with
  | none => simp [stepInstance, hl, eq_comm]
  | some s => cases hs : step (s.onStream j) <;> simp [stepInstance, hl, hs, eq_comm]

end Sys2Proof.Machine
end

