-- ==== Sys2Proof/Tests/Slice0.lean ====
section
/-! SUPPORT. The model's own tests: expected values from the vectors of 95_test_vectors.md, words written out from
30_encoding.md rule R62, and a witness for the hypotheses of every statement that has some. -/

namespace Sys2Proof.Tests

open Sys2Proof Sys2Proof.Machine

/-! ### Helpers -/

/-- The ramp table of 95_test_vectors.md, `TABLE[i] = (i mod 256) - 128`, at the offsets the tests read. -/
def rampCells : List Host.Cell :=
  [(0, 0x80#8), (1, 0x81#8), (2, 0x82#8), (3, 0x83#8), (5, 0x85#8), (44, 0xAC#8), (129, 0x01#8), (255, 0x7F#8),
    (511, 0x7F#8)]

/-- A state with an increment written. -/
def ramp (k r : Nat) (phase inc : Word) : State :=
  { State.reset with phase := phase, phaseInc := inc, incSet := true, cfg := { k := k, r := r, table := rampCells } }

/-- The same configuration with no increment written. -/
def rampUnset (k r : Nat) : State := { State.reset with cfg := { k := k, r := r, table := rampCells } }

/-- A check on the next state. -/
def nextIs (o : Host.Outcome State Fault Refusal) (f : State → Bool) : Bool :=
  match o with
  | .next s => f s
  | .fault _ => false
  | .refused _ => false

/-- A check on a fault. -/
def faultIs (o : Host.Outcome State Fault Refusal) (r : Fault) : Bool :=
  match o with
  | .next _ => false
  | .fault r' => r' == r
  | .refused _ => false

/-- A check on a refusal. -/
def refusedIs (o : Host.Outcome State Fault Refusal) (r : Refusal) : Bool :=
  match o with
  | .next _ => false
  | .fault _ => false
  | .refused r' => r' == r

/-! ### WellFormed: each check refuses an ill-formed command (10_state.md rule R30) -/

theorem test_next_on_port_C_is_ill_formed : (Instr.next .C).wellFormed = false := by decide
theorem test_phmod_on_port_C_is_ill_formed : (Instr.phmod .C 0x8000#32).wellFormed = false := by decide
theorem test_atindex_on_port_C_is_well_formed : (Instr.atindex .C 511#32).wellFormed = true := by decide

/-! ### Decoding: one word of each row, written out from rule R62's bit patterns -/

theorem test_decode_next : decode .P 0b0000000100000000000000000000000000000000#40 = .ok (.next .P) := by decide
theorem test_decode_phmod :
    decode .P 0b0000001011111111111111110000000000000000#40 = .ok (.phmod .P 0xFFFF0000#32) := by decide
theorem test_decode_atindex :
    decode .C 0b0000001100000000000000000000000111111111#40 = .ok (.atindex .C 511#32) := by decide
theorem test_decode_setfreqN8 :
    decode .C 0b0001000000000000000000011011100010000000#40 = .ok (.setfreqN8 .C 112768#32) := by decide
theorem test_decode_setfreqU :
    decode .P 0b0001000100000000000000000000000001000000#40 = .ok (.setfreqU .P 64#32) := by decide
theorem test_decode_setfreqF :
    decode .P 0b0001001011000010100000000000000000000000#40 = .ok (.setfreqF .P 0xC2800000#32) := by decide
theorem test_decode_phinc :
    decode .C 0b0001001100000000000000000000000010000000#40 = .ok (.phinc .C 128#32) := by decide
theorem test_decode_setinc :
    decode .C 0b0001010011111111111111111111111111111111#40 = .ok (.setinc .C 0xFFFFFFFF#32) := by decide

/-- V9.1, V9.2, V9.3, V9.7, V9.8, V9.9: the encoding is checked before the port. -/
theorem test_decode_reserved :
    decode .P 0x0000000000#40 = .reservedEncoding ∧ decode .P 0x0100000001#40 = .reservedEncoding ∧
      decode .C 0x0100000001#40 = .reservedEncoding ∧ decode .P 0x1500000000#40 = .reservedEncoding ∧
      decode .P 0x0400000000#40 = .reservedEncoding ∧ decode .C 0xFF12345678#40 = .reservedEncoding := by decide

/-- V9.4, V9.5. -/
theorem test_decode_wrong_port :
    decode .C 0x0100000000#40 = .wrongPort ∧ decode .C 0x0200008000#40 = .wrongPort := by decide

theorem test_decodeTableWord :
    decodeTableWord 40 0x1100000040 = some (.setfreqU .P 64#32) ∧ decodeTableWord 40 0x0400000000 = none := by decide

/-! ### The commands -/

/-- V1.1. -/
theorem test_next :
    nextIs (exec (.next .P) (ramp 8 16384 0 0x00010000#32))
      (fun t => t.phase == 0x00010000#32 && t.portP.responses == [0xFFFFFF81#32]) = true := by decide
/-- V1.2: the phase wraps. -/
theorem test_next_wraps :
    nextIs (exec (.next .P) (ramp 8 16384 0xFFFF0000#32 0x00010000#32))
      (fun t => t.phase == 0 && t.portP.responses == [0xFFFFFF80#32]) = true := by decide
/-- V2.6: half a traversal back; the modulation is not stored. -/
theorem test_phmod_backward :
    nextIs (exec (.phmod .P 0xFFFF8000#32) (ramp 8 16384 0 0x00010000#32))
      (fun t => t.phase == 0x00010000#32 && t.portP.responses == [0x00000001#32]) = true := by decide
/-- V2.8: a fraction of a cell carries into the index. -/
theorem test_phmod_fraction_carries :
    nextIs (exec (.phmod .P 0x00000080#32) (ramp 8 16384 0x00008000#32 0x00010000#32))
      (fun t => t.phase == 0x00018000#32 && t.portP.responses == [0xFFFFFF82#32]) = true := by decide
/-- V3.4: masked, with no increment written. -/
theorem test_atindex_masks :
    nextIs (exec (.atindex .C 0xFFFFFFFF#32) (rampUnset 9 16384))
      (fun t => t.portC.responses == [0x0000007F#32] && t.incSet == false) = true := by decide
/-- V3.6. -/
theorem test_atindex :
    nextIs (exec (.atindex .P 300#32) (rampUnset 8 16384)) (fun t => t.portP.responses == [0xFFFFFFAC#32]) = true := by
  decide
/-- V5.2. -/
theorem test_setfreqN8 :
    nextIs (exec (.setfreqN8 .C 112768#32) (rampUnset 8 16384))
      (fun t => t.phaseInc == 0x0006E200#32 && t.incSet && t.portC.responses == [0]) = true := by decide
/-- V5.7: the quotient wraps. -/
theorem test_setfreqN8_wraps :
    nextIs (exec (.setfreqN8 .P 0x40000000#32) (rampUnset 8 16384)) (fun t => t.phaseInc == 0 && t.incSet) = true := by
  decide
/-- V4.2: the division comes last. -/
theorem test_setfreqU_divides_last :
    nextIs (exec (.setfreqU .C 63#32) (rampUnset 8 16384)) (fun t => t.phaseInc == 0x0000FC00#32) = true := by decide
/-- V4.10: the floor. -/
theorem test_setfreqU_floors :
    nextIs (exec (.setfreqU .C 440#32) (rampUnset 11 44100)) (fun t => t.phaseInc == 0x00146EFD#32) = true := by decide
/-- V6.6: a tie goes away from zero, and a negative result is its two's complement. -/
theorem test_setfreqF_negative_tie :
    nextIs (exec (.setfreqF .P 0xBA000000#32) (rampUnset 8 16384)) (fun t => t.phaseInc == 0xFFFFFFFF#32) = true := by
  decide
/-- V6.11: rounded, where V4.10 floors. -/
theorem test_setfreqF_rounds :
    nextIs (exec (.setfreqF .C 0x43DC0000#32) (rampUnset 11 44100)) (fun t => t.phaseInc == 0x00146EFE#32) = true := by
  decide
/-- V6.12: a NaN completes; its increment is the free value, which no test reads. -/
theorem test_setfreqF_nan :
    nextIs (exec (.setfreqF .P 0x7FC00000#32) (rampUnset 8 16384))
      (fun t => t.incSet && t.portP.responses == [0]) = true := by decide
/-- V7.3: nothing is stored. -/
theorem test_phinc :
    nextIs (exec (.phinc .C 63#32) (rampUnset 8 16384))
      (fun t => t.portC.responses == [0x0000FC00#32] && t.incSet == false) = true := by decide
/-- V7.4: the quotient wraps. -/
theorem test_phinc_wraps :
    nextIs (exec (.phinc .C 4194304#32) (rampUnset 8 16384)) (fun t => t.portC.responses == [0]) = true := by decide
/-- V8.3. -/
theorem test_setinc :
    nextIs (exec (.setinc .C 0xFFFFFFFF#32) (ramp 8 16384 5 7))
      (fun t => t.phaseInc == 0xFFFFFFFF#32 && t.incSet && t.phase == 5 && t.portC.responses == [0]) = true := by decide
/-- V1.10, V2.10. -/
theorem test_unset_increment_faults :
    faultIs (exec (.next .P) (rampUnset 8 16384)) .incrementUnset = true ∧
      faultIs (exec (.phmod .P 0x8000#32) (rampUnset 8 16384)) .incrementUnset = true := by decide

/-! ### Steps, reset, assembler -/

/-- V10.6: after reset, NEXT faults and V10.7: ATINDEX 5 does not. -/
theorem test_step_after_reset :
    faultIs (step (State.reset.withFetchWord 40 0x0100000000)) .incrementUnset = true ∧
      nextIs (step ((rampUnset 8 16384).withFetchWord 40 0x0300000005))
        (fun t => t.portP.responses == [0xFFFFFF85#32]) = true := by decide
/-- V9.3: a reserved word is refused by the step, on port C too. -/
theorem test_step_refuses_reserved :
    refusedIs (step { State.reset with portC := { command := some 0x0100000001#40, responses := [] } })
      .reservedEncoding = true := by decide
/-- V10.4, V10.5. -/
theorem test_construct_refuses :
    refusedIs (construct 17 16384 rampCells State.reset) .invalidConfiguration = true ∧
      refusedIs (construct 8 0 rampCells State.reset) .invalidConfiguration = true := by decide
/-- V10.3, the upper ends of both ranges. -/
theorem test_construct_accepts_the_ends :
    nextIs (construct 16 4294967295 rampCells (ramp 8 16384 5 7))
      (fun t => t.phase == 0 && t.incSet == false && t.cfg.table == rampCells) = true := by decide
/-- Rule R66: NEXT takes no operand; a negative PHMOD operand is its two's complement; -64.0 is 0xC2800000 (P5). -/
theorem test_assemble :
    assemble { port := none, mnemonic := .next, operand := none } = some (.P, 0x0100000000#40) ∧
      assemble { port := none, mnemonic := .next, operand := some (.integer 0) } = none ∧
      assemble { port := some .P, mnemonic := .phmod, operand := some (.integer (-65536)) } =
        some (.P, 0x02FFFF0000#40) ∧
      assemble { port := some .C, mnemonic := .setfreqF, operand := some (.float true 640 (-1)) } =
        some (.C, 0x12C2800000#40) := by decide
/-- 0.1 to the nearest binary32 is 0x3DCCCCCD (V6.2), and a value past the range of an integer operand is refused. -/
theorem test_assemble_rounds :
    floatLiteral false 1 (-1) = 0x3DCCCCCD#32 ∧
      assemble { port := none, mnemonic := .setinc, operand := some (.integer (2 ^ 32)) } = none := by decide
/-- `C: SETFREQ.F -64.0 ; comment` and `PHMOD 0`. -/
theorem test_assembleText :
    assembleText
        ['C', ':', ' ', 'S', 'E', 'T', 'F', 'R', 'E', 'Q', '.', 'F', ' ', '-', '6', '4', '.', '0', ' ', ';', 'x'] =
        some (.C, 0x12C2800000#40) ∧
      assembleText ['P', 'H', 'M', 'O', 'D', ' ', '0'] = some (.P, 0x0200000000#40) := by decide

/-! ### Witnesses: a state and operands that meet the hypotheses of each statement -/

/-- A state with one word presented on port P, or on both ports, and what the host still does. -/
def presented (onP onC : Option CommandWord) (host : List HostEvent) : State :=
  { ramp 8 16384 0x00020000#32 0x00010000#32 with
    portP := { command := onP, responses := [] }
    portC := { command := onC, responses := [] }
    host := host }

theorem test_witness_EncodeThenDecodeIsIdentity :
    (Instr.phmod .P 0xFFFFFFFF#32).wellFormed = true ∧ (Instr.phmod .P 0xFFFFFFFF#32).port = .P := by decide
theorem test_witness_DecodedWordIsItsEncoding : decode .C 0x14FFFFFFFF#40 = .ok (.setinc .C 0xFFFFFFFF#32) := by decide
/-- At the ends of the reserved ranges, on either port. -/
theorem test_witness_ReservedWordsAreRefused :
    Port.C ≠ Port.P ∧ ((presented none (some 0x0F00000000#40) []).port .C).command = some 0x0F00000000#40 ∧
      ((presented none (some 0x0F00000000#40) []).port .P).command = none ∧
      decode .C 0x0F00000000#40 = .reservedEncoding ∧ decode .P 0x1500000000#40 = .reservedEncoding := by decide
theorem test_witness_ProducerCommandsAreRefusedOnPortC :
    (presented none (some 0x0100000000#40) []).portC.command = some 0x0100000000#40 ∧
      (presented none (some 0x0100000000#40) []).portP.command = none ∧
      decode .C 0x0100000000#40 = .wrongPort ∧ decode .C 0x02FFFFFFFF#40 = .wrongPort := by decide
theorem test_witness_StepRunsThePresentedCommand :
    Port.P ≠ Port.C ∧ ((presented (some 0x0100000000#40) none []).port .P).command = some 0x0100000000#40 ∧
      ((presented (some 0x0100000000#40) none []).port .C).command = none ∧
      decode .P 0x0100000000#40 = .ok (.next .P) := by decide
theorem test_witness_FetchWordIsTheNextCommandRun :
    (Instr.next .P).wellFormed = true ∧ (Instr.next .P).port = .P := by decide
/-- A witness for each of the host's three moves. -/
theorem test_witness_HostMovesWhenPortsAreIdle :
    State.reset.portsIdle = true ∧ State.reset.host = [] ∧
      (presented none none [.present none (some 0#40)]).portsIdle = true ∧
      (presented none none [.present none (some 0#40)]).host = [.present none (some 0#40)] ∧
      (presented none none [.construct 16 1 []]).portsIdle = true ∧
      (presented none none [.construct 16 1 []]).host = [.construct 16 1 []] := by decide
theorem test_witness_SimultaneousCommandsRunInOneOfTheTwoOrders :
    (presented (some 0x0100000000#40) (some 0x1100000080#40) []).portP.command = some 0x0100000000#40 ∧
      (presented (some 0x0100000000#40) (some 0x1100000080#40) []).portC.command = some 0x1100000080#40 ∧
      decode .P 0x0100000000#40 = .ok (.next .P) ∧ decode .C 0x1100000080#40 = .ok (.setfreqU .C 128#32) := by decide
theorem test_witness_StepsPerformAnyPresentedSequence :
    (∀ i ∈ [Instr.setfreqU .C 128#32, Instr.next .P], i.wellFormed = true) ∧
      (presented none none
        [.present none (some 0x1100000080#40), .present (some 0x0100000000#40) none]).portsIdle = true ∧
      (presented none none [.present none (some 0x1100000080#40), .present (some 0x0100000000#40) none]).host =
        [Instr.setfreqU .C 128#32, Instr.next .P].map presentation ++ [] := by decide
theorem test_witness_RacingNextAddsOldOrNewIncrement :
    (presented (some 0x0100000000#40) (some 0x1100000080#40) []).incSet = true ∧
      (presented (some 0x0100000000#40) (some 0x1100000080#40) []).portP.command = some (encode (.next .P)) ∧
      (presented (some 0x0100000000#40) (some 0x1100000080#40) []).portC.command = some 0x1100000080#40 ∧
      decode .C 0x1100000080#40 = .ok (.setfreqU .C 128#32) ∧ (Instr.setfreqU .C 128#32).writesInc = true := by decide
theorem test_witness_increment_is_set : (ramp 8 16384 0 0x00010000#32).incSet = true := by decide
/-- For PhmodAdvancesAndAnswersTheModulatedSample: the hypothesis with a wrapping phase and the most negative `m`. -/
theorem test_witness_PhmodAdvancesAndAnswersTheModulatedSample :
    (ramp 16 1 0xFFFFFFFF#32 0xFFFFFFFF#32).incSet = true := by decide
theorem test_witness_PhaseAdvancesLinearly :
    (ramp 8 16384 0 0x00010000#32).incSet = true ∧
      ∀ i ∈ [Instr.next .P, Instr.phinc .C 64#32, Instr.phmod .P 5#32], i.wellFormed = true ∧ i.writesInc = false := by
  decide
/-- Both ends of the table lengths and of the rates. -/
theorem test_witness_valid_configuration :
    (ramp 0 1 0 0).cfg.valid = true ∧ (ramp 16 4294967295 0 0).cfg.valid = true ∧
      (ramp 17 1 0 0).cfg.valid = false ∧ (ramp 8 0 0 0).cfg.valid = false := by decide
theorem test_witness_TableIndexIsTheBitField : 0 ≤ 16 ∧ 16 ≤ 16 := by decide
theorem test_witness_NoCommandReadsOutsideTheTable :
    (∀ off, off < 2 ^ (ramp 0 1 0 0).cfg.k →
      Memory.read [(0, 0x80#8), (7, 1#8)] off = tableRead (ramp 0 1 0 0) off) ∧
      nextIs (exec (.next .P) (ramp 0 1 0 0)) (fun _ => true) = true := by decide
/-- The largest finite float, the smallest subnormal, and an infinity. -/
theorem test_witness_float_classes :
    floatExponent 0x7F7FFFFF#32 ≠ 255 ∧ floatExponent 0x00000001#32 = 0 ∧ floatExponent 0xFF800000#32 = 255 := by decide
theorem test_witness_WholeHertzAgreeInBothIntegerSetters : BitVec.toNat 0x00FFFFFF#32 < 2 ^ 24 := by decide
/-- The largest frequencies without a wrap (V4.5, V5.6). -/
theorem test_witness_IncrementsAreWithinOneUnit :
    Configuration.valid { k := 8, r := 16384, table := [] } = true ∧
      hertzOverflows { k := 8, r := 16384, table := [] } 4194303#32 = false ∧
      q24n8Overflows { k := 8, r := 16384, table := [] } 0x3FFFFFFF#32 = false ∧
      floatOverflows { k := 8, r := 16384, table := [] } 0x42800000#32 = false ∧
      hertzOverflows { k := 8, r := 16384, table := [] } 4194304#32 = true := by decide
theorem test_witness_float_value_is_not_negative : 0 ≤ floatValue 0x42800000#32 := by decide +kernel
/-- A tie, for the second clause of RoundHalfAwayIsNearest. -/
theorem test_witness_RoundHalfAwayIsNearest : |(5 / 2 : Rat) - (roundHalfAway (5 / 2) : Rat)| = 1 / 2 := by decide +kernel
theorem test_witness_AcceptedCommandsCompleteWithOneResponse :
    (Instr.next .P).wellFormed = true ∧ ((Instr.next .P).advances = true → (ramp 8 16384 0 0).incSet = true) ∧
      (Instr.atindex .C 0#32).wellFormed = true ∧
      ((Instr.atindex .C 0#32).advances = true → State.reset.incSet = true) := by decide
theorem test_witness_FrameOfNextAndPhmod :
    (Instr.phmod .P 1#32).advances = true ∧ nextIs (exec (.phmod .P 1#32) (ramp 8 16384 0 1)) (fun _ => true) = true := by
  decide
theorem test_witness_FrameOfAtindexAndPhinc :
    (Instr.phinc .C 1#32).advances = false ∧ (Instr.phinc .C 1#32).writesInc = false ∧
      nextIs (exec (.phinc .C 1#32) (rampUnset 8 16384)) (fun _ => true) = true := by decide
/-- With a finite float, for the last clause, and with SETINC. -/
theorem test_witness_FrameOfTheIncrementWriters :
    (Instr.setfreqF .C 0x42800000#32).writesInc = true ∧ floatExponent 0x42800000#32 ≠ 255 ∧
      nextIs (exec (.setfreqF .C 0x42800000#32) (rampUnset 8 16384)) (fun t => t.draws == 0) = true ∧
      (Instr.setinc .P 1#32).writesInc = true ∧
      nextIs (exec (.setinc .P 1#32) (rampUnset 8 16384)) (fun _ => true) = true := by decide
/-- A step that moves PHASE by a NEXT, and one by a construction. -/
theorem test_witness_OnlyProducerCommandsMoveThePhase :
    nextIs (step (presented (some 0x0100000000#40) none [])) (fun t => t.phase != 0x00020000#32) = true ∧
      nextIs (step (presented none none [.construct 16 1 []])) (fun t => t.phase != 0x00020000#32) = true := by decide
/-- A step that writes the increment, and a construction that clears INC_SET. -/
theorem test_witness_OnlyTheFourWritersChangeTheIncrement :
    nextIs (step (presented none (some 0x1400000007#40) [])) (fun t => t.phaseInc != 0x00010000#32) = true ∧
      nextIs (step (presented none none [.construct 16 1 []])) (fun t => t.incSet != true) = true := by decide
theorem test_witness_OnlyConstructionChangesTheConfiguration :
    nextIs (step (presented none none [.construct 16 1 []]))
      (fun t => t.cfg != (presented none none [.construct 16 1 []]).cfg) = true := by decide
theorem test_witness_not_advancing : (Instr.setfreqF .P 0x7FC00000#32).advances = false := by decide
/-- The smallest and the largest valid configuration, and one just outside each bound, at the host's head. -/
theorem test_witness_ConstructionBindsTheConfiguration :
    (presented none none
        [.construct 0 1 ((List.range (2 ^ 0)).map fun off => (off, BitVec.ofNat 8 (off + 7)))]).portsIdle = true ∧
      (presented none none
          [.construct 0 1 ((List.range (2 ^ 0)).map fun off => (off, BitVec.ofNat 8 (off + 7)))]).host =
        [.construct 0 1 ((List.range (2 ^ 0)).map fun off => (off, BitVec.ofNat 8 (off + 7)))] ∧
      (0 ≤ 16 ∧ 1 ≤ 1 ∧ 1 ≤ 2 ^ 32 - 1) ∧
      ¬(0 ≤ 17 ∧ 17 ≤ 16 ∧ 1 ≤ 1 ∧ 1 ≤ 2 ^ 32 - 1) ∧ ¬(0 ≤ 8 ∧ 8 ≤ 16 ∧ 1 ≤ 0 ∧ 0 ≤ 2 ^ 32 - 1) := by decide
theorem test_witness_refused_constructions_at_the_hosts_head :
    (presented none none [.construct 17 1 []]).portsIdle = true ∧
      (presented none none [.construct 17 1 []]).host = .construct 17 1 [] :: [] ∧
      (presented none none [.construct 8 0 []]).host = .construct 8 0 [] :: [] ∧
      (presented none none [.construct 8 4294967296 []]).host = .construct 8 4294967296 [] :: [] ∧
      ¬(0 ≤ 8 ∧ 8 ≤ 16 ∧ 1 ≤ 4294967296 ∧ 4294967296 ≤ 2 ^ 32 - 1) ∧
      refusedIs (step (presented none none [.construct 17 1 []])) .invalidConfiguration = true ∧
      refusedIs (step (presented none none [.construct 8 0 []])) .invalidConfiguration = true ∧
      refusedIs (step (presented none none [.construct 8 4294967296 []])) .invalidConfiguration = true := by decide
theorem test_witness_EveryStepKeepsTheInvariant :
    Inv (ramp 9 16384 5 7) ∧ nextIs (step (ramp 9 16384 5 7)) (fun _ => true) = true :=
  ⟨⟨by decide, by decide, by decide, by decide⟩, by decide⟩
theorem test_witness_AssembledLinesAreCommands :
    assemble { port := some .C, mnemonic := .next, operand := none } = some (.C, 0x0100000000#40) := by decide
theorem test_witness_FloatLiteralIsNearest :
    floatExponent (floatLiteral true 1 (-1)) ≠ 255 ∧ floatExponent 0x3DCCCCCC#32 ≠ 255 := by decide
theorem test_witness_InstancesShareNothing :
    stepInstance [State.reset, ramp 8 16384 5 7] 0 = some [State.reset, ramp 8 16384 5 7] ∧ 1 ≠ 0 := by decide
/-- Two lists that agree at position 1 alone. -/
theorem test_witness_InstancesReadNothingOfEachOther :
    ([State.reset, ramp 8 16384 5 7] : List State)[1]? = [rampUnset 9 1, ramp 8 16384 5 7][1]? ∧
      (stepInstance [State.reset, ramp 8 16384 5 7] 1).isSome = true := by decide
/-- A NaN on port P of the second of two equal instances. -/
theorem test_witness_InstancesDrawFromTheirOwnStreams :
    [presented (some 0x127FC00000#40) none [], presented (some 0x127FC00000#40) none []][1]? =
        some (presented (some 0x127FC00000#40) none []) ∧
      Port.P ≠ Port.C ∧
      ((presented (some 0x127FC00000#40) none []).port .P).command = some (encode (.setfreqF .P 0x7FC00000#32)) ∧
      ((presented (some 0x127FC00000#40) none []).port .C).command = none ∧ floatExponent 0x7FC00000#32 = 255 := by
  decide
theorem test_witness_EveryStepKeepsTheStream :
    nextIs (step ((presented (some 0x127FC00000#40) none []).onStream 3)) (fun t => t.stream == 3) = true := by decide

end Sys2Proof.Tests
end

section
/-! The three readings of the table index (00_scope.md rule R15): the masked quotient, the bit field, and the single
cell of a table with `k = 0`. -/

namespace Sys2Proof.Proofs

open Sys2Proof Sys2Proof.Machine

/-- The shift by `F_BITS` of rule R15 drops the fraction of the phase. -/
theorem phaseIndex_eq_div_and (k : Nat) (p : Word) : phaseIndex k p = (p.toNat / 2 ^ 16) &&& (2 ^ k - 1) := by
  rw [phaseIndex, Nat.shiftRight_eq_div_pow]

/-- Masking with `L - 1` and extracting `k` bits both keep the remainder modulo `L = 2 ^ k`. -/
theorem phaseIndex_eq_bitField (k : Nat) (p : Word) : phaseIndex k p = (p.extractLsb' 16 k).toNat := by
  rw [phaseIndex, Nat.and_two_pow_sub_one_eq_mod, BitVec.extractLsb'_toNat]

@[simp] theorem phaseIndex_zero (p : Word) : phaseIndex 0 p = 0 := by
  rw [phaseIndex, pow_zero, Nat.sub_self, Nat.and_zero]

/-- Settles O21: each reading of rule R15 holds at every `k`, so the bound on `k` is not used. -/
theorem tableIndexIsTheBitField : Obligations.TableIndexIsTheBitField := by
  intro k p _
  refine ⟨phaseIndex_eq_div_and k p, phaseIndex_eq_bitField k p, ?_⟩
  rintro rfl
  exact phaseIndex_zero p

end Sys2Proof.Proofs
end

section
/-! The decoder as rule R65's chain of checks over the word as a number (30_encoding.md), and the words it finds
reserved (rules R63, R64). -/

namespace Sys2Proof.Proofs

open Sys2Proof Sys2Proof.Machine

/-- OPERAND is the word's low 32 bits, taken whole (30_encoding.md rule R61). -/
theorem operandField_eq_ofNat (w : CommandWord) : operandField w = BitVec.ofNat 32 w.toNat :=
  BitVec.eq_of_toNat_eq (by rw [operandField_toNat, BitVec.toNat_ofNat])

/-- Rule R63's check on the operand, as a remainder. -/
theorem operandField_ne_zero_iff (w : CommandWord) : operandField w ≠ 0 ↔ w.toNat % 2 ^ 32 ≠ 0 := by
  rw [← operandField_toNat, Ne, Ne, BitVec.toNat_eq, BitVec.ofNat_eq_ofNat, BitVec.toNat_ofNat, Nat.zero_mod]

/-- The port check written with the refusal first, as rule R65 has it. -/
theorem onProducerPort_eq_ite (p : Port) (i : Instr) :
    onProducerPort p i = if p ≠ .P then .wrongPort else .ok i := by
  rw [onProducerPort, ite_not]

/-- Settles O2: one case for each row of the opcode map (rule R62), and one for every other opcode. -/
theorem decoderFollowsItsCheckOrder : Obligations.DecoderFollowsItsCheckOrder := by
  intro p w
  simp only [decode, opField_toNat, operandField_ne_zero_iff, onProducerPort_eq_ite]
  rw [operandField_eq_ofNat]
  generalize w.toNat / 2 ^ 32 = op
  split
  case h_9 hNext hPhmod hAtindex hN8 hU hF hPhinc hSetinc =>
    rw [if_neg hNext, if_neg hPhmod, if_neg hAtindex, if_neg hN8, if_neg hU, if_neg hF, if_neg hPhinc, if_neg hSetinc]
  all_goals rfl

/-- The reserved words are the gaps of the opcode map, and NEXT with an operand (rules R63, R64). -/
theorem decode_eq_reservedEncoding_iff (p : Port) (w : CommandWord) :
    decode p w = .reservedEncoding ↔
      w.toNat / 2 ^ 32 = 0x00 ∨ (0x04 ≤ w.toNat / 2 ^ 32 ∧ w.toNat / 2 ^ 32 ≤ 0x0F) ∨ 0x15 ≤ w.toNat / 2 ^ 32 ∨
        (w.toNat / 2 ^ 32 = 0x01 ∧ w.toNat % 2 ^ 32 ≠ 0) := by
  rw [decoderFollowsItsCheckOrder p w]
  generalize w.toNat / 2 ^ 32 = op
  generalize w.toNat % 2 ^ 32 = operand
  split_ifs <;> simp only [true_iff, false_iff] <;> omega

/-- A word presented alone is what the step performs (20_memory.md rule R47). -/
theorem step_eq_perform {s : State} {p q : Port} {w : CommandWord} (hpq : p ≠ q)
    (hp : (s.port p).command = some w) (hq : (s.port q).command = none) : step s = perform p w s := by
  cases p <;> cases q
  case P.P | C.C => exact absurd rfl hpq
  case P.C | C.P => simp only [State.port_P, State.port_C] at hp hq; simp only [step, move, hp, hq]

/-- Performing a reserved word is refused, whatever the state (60_exceptions.md rule R133). -/
theorem perform_of_reservedEncoding {p : Port} {w : CommandWord} (h : decode p w = .reservedEncoding) (s : State) :
    perform p w s = .refused .reservedEncoding := by
  rw [perform, h]

/-- Settles O5: the reserved words by the decoder's chain of checks, the refusal by what a step performs. -/
theorem reservedWordsAreRefused : Obligations.ReservedWordsAreRefused := by
  intro p q w hpq
  refine ⟨decode_eq_reservedEncoding_iff p w, fun s hp hq hres => ?_⟩
  rw [step_eq_perform hpq hp hq, perform_of_reservedEncoding hres]

end Sys2Proof.Proofs
end

section
/-! `round_half_away` (41_frequency_control.md rule R106) as Mathlib's `round` of the magnitude under the argument's
sign: a magnitude is never negative, so the tie that `round` takes upward is the one away from zero. -/

namespace Sys2Proof.Proofs

open Sys2Proof Sys2Proof.Machine

theorem roundHalfAway_of_neg {y : Rat} (hy : y < 0) : roundHalfAway y = -round |y| := by
  rw [roundHalfAway, if_pos hy, round_eq, abs_of_neg hy]
  rfl

theorem roundHalfAway_of_nonneg {y : Rat} (hy : 0 ≤ y) : roundHalfAway y = round |y| := by
  rw [roundHalfAway, if_neg hy.not_gt, round_eq, abs_of_nonneg hy]
  rfl

/-- Rule R106's formula; at 0 the sign is 0, and so is the value. -/
theorem roundHalfAway_eq_sign_mul_floor (y : Rat) : roundHalfAway y = y.num.sign * ⌊|y| + 1 / 2⌋ := by
  rw [← round_eq]
  rcases lt_trichotomy y 0 with hneg | rfl | hpos
  · rw [roundHalfAway_of_neg hneg, Int.sign_eq_neg_one_of_neg (Rat.num_neg.mpr hneg), neg_one_mul]
  · rw [roundHalfAway_of_nonneg le_rfl, abs_zero, round_zero, mul_zero]
  · rw [roundHalfAway_of_nonneg hpos.le, Int.sign_eq_one_of_pos (Rat.num_pos.mpr hpos), one_mul]

theorem abs_sub_roundHalfAway (y : Rat) : |y - (roundHalfAway y : Rat)| = |(|y| - round |y|)| := by
  rcases lt_or_ge y 0 with hneg | hnonneg
  · rw [roundHalfAway_of_neg hneg, abs_of_neg hneg, Int.cast_neg, sub_neg_eq_add, ← abs_neg, neg_add']
  · rw [roundHalfAway_of_nonneg hnonneg, abs_of_nonneg hnonneg]

theorem round_abs_le_abs_roundHalfAway (y : Rat) : (round |y| : Rat) ≤ |(roundHalfAway y : Rat)| := by
  rcases lt_or_ge y 0 with hneg | hnonneg
  · rw [roundHalfAway_of_neg hneg, Int.cast_neg, abs_neg]
    exact le_abs_self _
  · rw [roundHalfAway_of_nonneg hnonneg]
    exact le_abs_self _

/-- `round` takes a tie upward: below `x` it stays less than 1/2 away (`sub_half_lt_round`). -/
theorem lt_round_of_tie {x : Rat} (htie : |x - (round x : Rat)| = 1 / 2) : x < round x := by
  by_contra hle
  rw [abs_of_nonneg (sub_nonneg.mpr (not_lt.mp hle))] at htie
  linarith [sub_half_lt_round x]

theorem abs_lt_abs_roundHalfAway_of_tie {y : Rat} (htie : |y - (roundHalfAway y : Rat)| = 1 / 2) :
    |y| < |(roundHalfAway y : Rat)| := by
  rw [abs_sub_roundHalfAway] at htie
  exact (lt_round_of_tie htie).trans_le (round_abs_le_abs_roundHalfAway y)

/-- Settles O35: the formula, the distance and the ties from `round` of the magnitude, then the rule's three examples. -/
theorem roundHalfAwayIsNearest : Obligations.RoundHalfAwayIsNearest := by
  refine ⟨fun y => ⟨roundHalfAway_eq_sign_mul_floor y, ?_, abs_lt_abs_roundHalfAway_of_tie⟩, ?_, ?_, ?_⟩
  · rw [abs_sub_roundHalfAway]
    exact abs_sub_round |y|
  all_goals norm_num [roundHalfAway_eq_sign_mul_floor, abs_div]

end Sys2Proof.Proofs
end

section
/-! When one command faults (60_exceptions.md rules R132, R135). Only the advance of NEXT and PHMOD has a fault, and the
port check stands before it; every other command completes. -/

namespace Sys2Proof.Proofs

open Sys2Proof Sys2Proof.Machine

/-- A composition faults in its first part, or through an intermediate state in its second. -/
theorem andThen_eq_fault {o : Host.Outcome State Fault Refusal} {f : State → Host.Outcome State Fault Refusal}
    {r : Fault} : andThen o f = .fault r ↔ o = .fault r ∨ ∃ s, o = .next s ∧ f s = .fault r := by
  cases o <;> simp

theorem advance_eq_fault {s : State} {r : Fault} :
    advance s = .fault r ↔ r = .incrementUnset ∧ s.incSet = false := by
  cases h : s.incSet with
  | false => simp [advance_of_unset h]
  | true => simp [advance_of_set h]

/-- What NEXT and PHMOD share, whichever cell `off` selects: past the port check, the advance is all that can fault. -/
theorem advanceAndRespond_eq_fault {p : Port} {off : State → Nat} {s : State} {r : Fault} :
    (andThen (producerOnly p s) fun s => andThen (advance s) fun s => respondSample p (off s) s) = .fault r ↔
      r = .incrementUnset ∧ s.incSet = false ∧ p = .P := by
  cases p with
  | P => simp [andThen_eq_fault, advance_eq_fault]
  | C => simp

theorem exec_next_eq_fault {p : Port} {s : State} {r : Fault} :
    exec (.next p) s = .fault r ↔ r = .incrementUnset ∧ s.incSet = false ∧ p = .P :=
  advanceAndRespond_eq_fault

theorem exec_phmod_eq_fault {p : Port} {m : Word} {s : State} {r : Fault} :
    exec (.phmod p m) s = .fault r ↔ r = .incrementUnset ∧ s.incSet = false ∧ p = .P :=
  advanceAndRespond_eq_fault

theorem exec_ne_fault_of_not_advances {i : Instr} (h : i.advances = false) (s : State) (r : Fault) :
    exec i s ≠ .fault r := by
  obtain ⟨t, ht⟩ := exec_completes (s := s) h
  simp [ht]

/-- Settles O37: NEXT and PHMOD fault on port P with INC_SET = 0; a command that does not advance never faults. -/
theorem onlyAnUnsetIncrementFaults : Obligations.OnlyAnUnsetIncrementFaults := by
  intro i s r
  cases i with
  | next p => simp [exec_next_eq_fault]
  | phmod p m => simp [exec_phmod_eq_fault]
  | _ => exact iff_of_false (exec_ne_fault_of_not_advances rfl s r) (by simp)

end Sys2Proof.Proofs
end

section
/-! The encoder and the decoder as inverses (30_encoding.md rules R60 to R62, R65), the words refused for their port,
and the words of assembled lines (rule R66). -/

namespace Sys2Proof.Proofs

open Sys2Proof Sys2Proof.Machine

/-- A well-formed command is read back from its own word on its own port, whatever its operand. -/
theorem decode_encode {i : Instr} (h : i.wellFormed = true) : decode i.port (encode i) = .ok i := by
  obtain ⟨hop, hoperand⟩ := Laws.EncodedFields.of i
  rw [decode, hop, hoperand]
  cases i with
  | next p | phmod p m =>
    obtain rfl : p = .P := of_decide_eq_true h
    rfl
  | _ => rfl

theorem decodeTableWord_encode {i : Instr} (h : i.wellFormed = true) (hp : i.port = .P) :
    decodeTableWord 40 (encode i).toNat = some i := by
  have hlt := (encode i).isLt
  have hdecode := decode_encode h
  rw [hp] at hdecode
  rw [decodeTableWord, Nat.mod_eq_of_lt hlt, if_pos hlt, BitVec.ofNat_toNat, BitVec.setWidth_eq, hdecode]

/-- Settles O3: the decoder by the fields of the encoded word; the table's number of a word is the word. -/
theorem encodeThenDecodeIsIdentity : Obligations.EncodeThenDecodeIsIdentity :=
  fun _ h => ⟨decode_encode h, decodeTableWord_encode h⟩

/-- A word with a command's opcode and operand in its fields is that command's word. -/
theorem encode_eq_of_fields {i : Instr} {w : CommandWord} (hop : (opField w).toNat = (opcodeOf i).toNat)
    (hoperand : operandField w = operandOf i) : encode i = w := by
  rw [encode, ← BitVec.eq_of_toNat_eq hop, ← hoperand, ← word_eq_fields]

/-- What the decoder reads, row by row of the opcode map. -/
theorem decode_eq_ok {p : Port} {w : CommandWord} {i : Instr} (h : decode p w = .ok i) :
    encode i = w ∧ i.port = p ∧ i.wellFormed = true := by
  unfold decode at h
  split at h
  case h_1 hop =>
    split at h
    · cases h
    · obtain ⟨rfl, rfl⟩ := onProducerPort_eq_ok.mp h
      exact ⟨encode_eq_of_fields hop (not_not.mp ‹_›), rfl, rfl⟩
  case h_2 hop =>
    obtain ⟨rfl, rfl⟩ := onProducerPort_eq_ok.mp h
    exact ⟨encode_eq_of_fields hop rfl, rfl, rfl⟩
  case h_9 => cases h
  all_goals
    cases h
    exact ⟨encode_eq_of_fields ‹_› rfl, rfl, rfl⟩

/-- Settles O4. -/
theorem decodedWordIsItsEncoding : Obligations.DecodedWordIsItsEncoding :=
  fun _ _ _ => decode_eq_ok

/-- Settles O1: each row's word is the encoding of its command. -/
theorem opcodeMapWordsDecode : Obligations.OpcodeMapWordsDecode :=
  ⟨decode_encode (i := .next .P) rfl, decode_encode (i := .phmod .P 0xFFFF0000#32) rfl,
    decode_encode (i := .atindex .C 511#32) rfl, decode_encode (i := .setfreqN8 .C 112768#32) rfl,
    decode_encode (i := .setfreqU .P 64#32) rfl, decode_encode (i := .setfreqF .C 0xC2800000#32) rfl,
    decode_encode (i := .phinc .P 128#32) rfl, decode_encode (i := .setinc .C 0xFFFFFFFF#32) rfl⟩

/-- Only NEXT's word and PHMOD's opcode are refused for the port, and only on port C (rule R65). -/
theorem decode_eq_wrongPort_iff (p : Port) (w : CommandWord) :
    decode p w = .wrongPort ↔ p = .C ∧ (w.toNat = 0x0100000000 ∨ w.toNat / 2 ^ 32 = 0x02) := by
  have hnext : w.toNat = 0x0100000000 ↔ w.toNat / 2 ^ 32 = 0x01 ∧ w.toNat % 2 ^ 32 = 0 := by omega
  rw [decoderFollowsItsCheckOrder p w, hnext]
  generalize w.toNat / 2 ^ 32 = op
  generalize w.toNat % 2 ^ 32 = operand
  cases p <;> split_ifs <;> simp_all

theorem perform_of_wrongPort {p : Port} {w : CommandWord} (h : decode p w = .wrongPort) (s : State) :
    perform p w s = .refused .wrongPort := by
  rw [perform, h]

/-- Settles O6: the words by the decoder's chain of checks, the meanings by their own port check. -/
theorem producerCommandsAreRefusedOnPortC : Obligations.ProducerCommandsAreRefusedOnPortC := by
  refine ⟨decode_eq_wrongPort_iff, fun s w hC hP hw => ?_, fun s m => ⟨rfl, rfl⟩⟩
  rw [step_eq_perform (p := .C) (q := .P) (by decide) hC hP, perform_of_wrongPort hw]

/-- Rule R65 checks the encoding before the port, so a command's word is reserved on neither port. -/
theorem decode_encode_ne_reservedEncoding (p : Port) (i : Instr) : decode p (encode i) ≠ .reservedEncoding := by
  obtain ⟨hop, hoperand⟩ := Laws.EncodedFields.of i
  rw [decode, hop, hoperand]
  cases i with
  | next q | phmod q m => cases p <;> nofun
  | _ => nofun

theorem port_of_assembleInstr {p : Port} {m : Mnemonic} {o : Option AsmOperand} {i : Instr}
    (h : assembleInstr p m o = some i) : i.port = p := by
  cases m with
  | next =>
    obtain ⟨_, hi⟩ := Option.ite_none_right_eq_some.mp h
    cases hi
    rfl
  | _ =>
    obtain ⟨_, _, rfl⟩ := Option.map_eq_some_iff.mp h
    rfl

theorem wellFormed_of_port_P {i : Instr} (h : i.port = .P) : i.wellFormed = true := by
  cases i with
  | next p | phmod p m => exact decide_eq_true h
  | _ => rfl

/-- Settles O52: the assembled word is a command's encoding, and port P accepts every command. -/
theorem assembledLinesAreCommands : Obligations.AssembledLinesAreCommands := by
  intro l p w h
  obtain ⟨i, hi, hpw⟩ := Option.map_eq_some_iff.mp h
  obtain ⟨rfl, rfl⟩ := Prod.mk.inj hpw
  have hport := port_of_assembleInstr hi
  refine ⟨rfl, decode_encode_ne_reservedEncoding _ i, fun hP => ⟨i, ?_, rfl⟩⟩
  rw [← hport]
  exact decode_encode (wellFormed_of_port_P (hport.trans hP))

end Sys2Proof.Proofs
end

section
/-! What every step keeps, from one list of what a step that answers can do: a presented command is performed, the host
presents words or waits, or the host constructs the block (20_memory.md rule R47; 10_state.md rules R22, R23, R25,
R29). -/

namespace Sys2Proof.Proofs

open Sys2Proof Sys2Proof.Machine

/-- The block's own registers, its configuration and its stream are the same in both states: only the ports, the host's
list and the count of draws may differ. -/
structure SameRegisters (s t : State) : Prop where
  phase : t.phase = s.phase
  phaseInc : t.phaseInc = s.phaseInc
  incSet : t.incSet = s.incSet
  cfg : t.cfg = s.cfg
  stream : t.stream = s.stream

theorem sameRegisters_takeCommand (s : State) (p : Port) : SameRegisters s (s.takeCommand p) := by
  constructor <;> simp

theorem sameRegisters_countDraw_takeCommand (s : State) (p : Port) : SameRegisters s (s.countDraw.takeCommand p) := by
  constructor <;> simp

theorem sameRegisters_present (s : State) (rest : List HostEvent) (onP onC : Option CommandWord) :
    SameRegisters s ((s.setHost rest).present onP onC) := by
  constructor <;> simp

/-- What a step that answers can do. -/
theorem step_effect {s t : State} (h : step s = .next t) :
    (∃ p w i u, (s.port p).command = some w ∧ decode p w = .ok i ∧ SameRegisters s u ∧ exec i u = .next t) ∨
      SameRegisters s t ∨
      (s.portsIdle = true ∧ ∃ k r cells rest, s.host = .construct k r cells :: rest ∧
        construct k r cells (s.setHost rest) = .next t) := by
  rcases step_cases h with ⟨p, w, s', hw, hs', hperform⟩ | ⟨hP, hC, hhost⟩
  · obtain ⟨i, hi, hexec⟩ := perform_eq_next.mp hperform
    refine .inl ⟨p, w, i, s'.takeCommand p, hw, hi, ?_, hexec⟩
    rcases hs' with rfl | rfl
    · exact sameRegisters_takeCommand _ p
    · exact sameRegisters_countDraw_takeCommand s p
  · rcases hostMove_cases hhost with rfl | ⟨onP, onC, rest, _, rfl⟩ | hconstruct
    · exact .inr (.inl ⟨rfl, rfl, rfl, rfl, rfl⟩)
    · exact .inr (.inl (sameRegisters_present s rest onP onC))
    · exact .inr (.inr ⟨portsIdle_iff.mpr ⟨hP, hC⟩, hconstruct⟩)

/-! ### What a command can do to PHASE, PHASE_INC, INC_SET and the stream -/

theorem exec_phase {i : Instr} {s t : State} (h : exec i s = .next t) :
    t.phase = if i.advances then s.phase + s.phaseInc else s.phase := by
  rcases exec_shape h with ⟨ha, _, _, v, rfl⟩ | ⟨ha, _, v, s', rfl | ⟨rfl, _⟩, rfl⟩ | ⟨ha, _, v, rfl⟩ <;> simp [ha]

/-- The phase advances on port P only, and only with an increment written. -/
theorem exec_advances {i : Instr} {s t : State} (h : exec i s = .next t) (ha : i.advances = true) :
    i.port = .P ∧ s.incSet = true := by
  rcases exec_shape h with ⟨_, hP, hset, _⟩ | ⟨hna, _⟩ | ⟨hna, _⟩
  · exact ⟨hP, hset⟩
  all_goals exact absurd ha (by simp [hna])

theorem writesInc_of_advances {i : Instr} (h : i.advances = true) : i.writesInc = false := by
  cases i with
  | next p | phmod p m => rfl
  | _ => cases h

theorem not_advances_of_writesInc {i : Instr} (h : i.writesInc = true) : i.advances = false := by
  cases ha : i.advances with
  | false => rfl
  | true => exact absurd (writesInc_of_advances ha) (by simp [h])

theorem exec_incSet {i : Instr} {s t : State} (h : exec i s = .next t) : t.incSet = (s.incSet || i.writesInc) := by
  rcases exec_shape h with ⟨ha, _, _, v, rfl⟩ | ⟨_, hw, v, s', rfl | ⟨rfl, _⟩, rfl⟩ | ⟨_, hw, v, rfl⟩
  · simp [writesInc_of_advances ha]
  all_goals simp [hw]

theorem exec_phaseInc {i : Instr} {s t : State} (h : exec i s = .next t) (hw : i.writesInc = false) :
    t.phaseInc = s.phaseInc := by
  rcases exec_shape h with ⟨_, _, _, v, rfl⟩ | ⟨_, hw', _⟩ | ⟨_, _, v, rfl⟩
  · simp
  · exact absurd hw' (by simp [hw])
  · simp

theorem exec_keeps_stream {i : Instr} {s t : State} (h : exec i s = .next t) : t.stream = s.stream := by
  rcases exec_shape h with ⟨_, _, _, v, rfl⟩ | ⟨_, _, v, s', rfl | ⟨rfl, _⟩, rfl⟩ | ⟨_, _, v, rfl⟩ <;> simp

/-! ### The invariant -/

/-- The invariant speaks of registers alone. -/
theorem inv_of_sameRegisters {s t : State} (h : SameRegisters s t) (hs : Inv s) : Inv t := by
  obtain ⟨hvalid, hcanonical, hspace, hunset⟩ := hs
  constructor
  · rwa [h.cfg]
  · rwa [h.cfg]
  · rwa [h.cfg]
  · rwa [h.incSet, h.phase]

/-- No command changes the configuration, and without an increment none moves PHASE. -/
theorem exec_keeps_inv {i : Instr} {s t : State} (h : exec i s = .next t) (hs : Inv s) : Inv t := by
  obtain ⟨hvalid, hcanonical, hspace, hunset⟩ := hs
  have hcfg := exec_keeps_cfg h
  refine ⟨by rwa [hcfg], by rwa [hcfg], by rwa [hcfg], fun ht => ?_⟩
  obtain ⟨hset, _⟩ := Bool.or_eq_false_iff.mp ((exec_incSet h).symm.trans ht)
  have ha : i.advances = false := by
    by_contra hadv
    exact absurd (exec_advances h (Bool.not_eq_false _ ▸ hadv)).2 (by simp [hset])
  rw [exec_phase h, ha]
  exact hunset hset

/-- Construction binds a valid configuration and a table in canonical form, whatever stood before. -/
theorem construct_inv {k r : Nat} {cells : List Host.Cell} {s t : State} (h : construct k r cells s = .next t) :
    Inv t := by
  obtain ⟨hvalid, rfl⟩ := construct_eq_next.mp h
  exact ⟨hvalid, Memory.bind_wf k cells, Memory.bind_in_space k cells, fun _ => rfl⟩

/-- Settles O51: each thing a step can do keeps the invariant. -/
theorem everyStepKeepsTheInvariant : Obligations.EveryStepKeepsTheInvariant := by
  intro s t hs hstep
  rcases step_effect hstep with ⟨p, w, i, u, _, _, hu, hexec⟩ | ht | ⟨_, k, r, cells, rest, _, hconstruct⟩
  · exact exec_keeps_inv hexec (inv_of_sameRegisters hu hs)
  · exact inv_of_sameRegisters ht hs
  · exact construct_inv hconstruct

/-- Settles O50: the table at reset lists nothing. -/
theorem resetMeetsTheInvariant : Obligations.ResetMeetsTheInvariant :=
  ⟨rfl, ⟨.nil, nofun⟩, nofun, fun _ => rfl⟩

/-- Settles O49. -/
theorem resetLeavesPhaseZeroAndPortsIdle : Obligations.ResetLeavesPhaseZeroAndPortsIdle :=
  ⟨rfl, rfl, rfl, rfl⟩

/-! ### Which step changes which register -/

/-- Settles O43: a command that moves PHASE advances it, so it was issued on port P. -/
theorem onlyProducerCommandsMoveThePhase : Obligations.OnlyProducerCommandsMoveThePhase := by
  intro s t hstep hne
  rcases step_effect hstep with ⟨p, w, i, u, hw, hi, hu, hexec⟩ | ht | ⟨hidle, k, r, cells, rest, hhost, hconstruct⟩
  · have hphase := exec_phase hexec
    rw [hu.phase, hu.phaseInc] at hphase
    cases ha : i.advances with
    | false => exact absurd (by rw [hphase, ha]; rfl) hne
    | true =>
      obtain rfl : p = .P := (decode_eq_ok hi).2.1.symm.trans (exec_advances hexec ha).1
      exact .inl ⟨w, i, hw, hi, ha, by rw [hphase, ha]; rfl⟩
  · exact absurd ht.phase hne
  · obtain ⟨_, rfl⟩ := construct_eq_next.mp hconstruct
    exact .inr ⟨hidle, rfl, k, r, cells, rest, hhost⟩

/-- Settles O44: a command that changes PHASE_INC or INC_SET is a writer, and leaves INC_SET 1. -/
theorem onlyTheFourWritersChangeTheIncrement : Obligations.OnlyTheFourWritersChangeTheIncrement := by
  intro s t hstep hne
  rcases step_effect hstep with ⟨p, w, i, u, hw, hi, hu, hexec⟩ | ht | ⟨hidle, k, r, cells, rest, hhost, hconstruct⟩
  · have hset := exec_incSet hexec
    cases hwrites : i.writesInc with
    | false =>
      rw [hwrites, Bool.or_false, hu.incSet] at hset
      exact absurd hne (not_or.mpr ⟨not_not.mpr ((exec_phaseInc hexec hwrites).trans hu.phaseInc), not_not.mpr hset⟩)
    | true => exact .inl ⟨by rw [hset, hwrites, Bool.or_true], p, w, i, hw, hi, hwrites⟩
  · exact absurd hne (not_or.mpr ⟨not_not.mpr ht.phaseInc, not_not.mpr ht.incSet⟩)
  · obtain ⟨_, rfl⟩ := construct_eq_next.mp hconstruct
    exact .inr ⟨rfl, hidle, k, r, cells, rest, hhost⟩

/-- Settles O45: neither a command nor a presentation changes the configuration. -/
theorem onlyConstructionChangesTheConfiguration : Obligations.OnlyConstructionChangesTheConfiguration := by
  intro s t hstep hne
  rcases step_effect hstep with ⟨p, w, i, u, _, _, hu, hexec⟩ | ht | ⟨hidle, k, r, cells, rest, hhost, _⟩
  · exact absurd ((exec_keeps_cfg hexec).trans hu.cfg) hne
  · exact absurd ht.cfg hne
  · exact ⟨hidle, k, r, cells, rest, hhost⟩

/-- Settles O57: a construction keeps the stream too. -/
theorem everyStepKeepsTheStream : Obligations.EveryStepKeepsTheStream := by
  intro s t hstep
  rcases step_effect hstep with ⟨p, w, i, u, _, _, hu, hexec⟩ | ht | ⟨_, k, r, cells, rest, _, hconstruct⟩
  · exact (exec_keeps_stream hexec).trans hu.stream
  · exact ht.stream
  · obtain ⟨_, rfl⟩ := construct_eq_next.mp hconstruct
    rfl

end Sys2Proof.Proofs
end

section
/-! When a command completes, what it answers and what it leaves (60_exceptions.md rules R130, R133; 10_state.md rules
R30, R32; 70_reset_and_hazards.md rule R153). -/

namespace Sys2Proof.Proofs

open Sys2Proof Sys2Proof.Machine

/-! ### Each command's meaning, where it completes -/

theorem exec_next_of_set {s : State} (h : s.incSet = true) :
    exec (.next .P) s =
      respondSample .P (phaseIndex s.cfg.k (s.phase + s.phaseInc)) (s.setPhase (s.phase + s.phaseInc)) :=
  execNext_eq_next.mpr ⟨rfl, h, rfl⟩

theorem exec_phmod_of_set {s : State} (m : Word) (h : s.incSet = true) :
    exec (.phmod .P m) s =
      respondSample .P (phaseIndex s.cfg.k (modulatedPhase s.cfg.k (s.phase + s.phaseInc) m))
        (s.setPhase (s.phase + s.phaseInc)) :=
  execPhmod_eq_next.mpr ⟨rfl, h, rfl⟩

theorem exec_next_of_unset {s : State} (h : s.incSet = false) : exec (.next .P) s = .fault .incrementUnset :=
  exec_next_eq_fault.mpr ⟨rfl, h, rfl⟩

theorem exec_phmod_of_unset {s : State} (m : Word) (h : s.incSet = false) :
    exec (.phmod .P m) s = .fault .incrementUnset :=
  exec_phmod_eq_fault.mpr ⟨rfl, h, rfl⟩

theorem exec_atindex (p : Port) (i : Word) (s : State) :
    exec (.atindex p i) s = respondSample p (maskedIndex s.cfg.k i) s := rfl

theorem exec_setfreqN8 (p : Port) (f : Word) (s : State) :
    exec (.setfreqN8 p f) s = writeInc p (q24n8Inc s.cfg f) s := rfl

theorem exec_setfreqU (p : Port) (f : Word) (s : State) :
    exec (.setfreqU p f) s = writeInc p (hertzInc s.cfg f) s := rfl

theorem exec_setfreqF_of_special {F : Word} (h : floatExponent F = 255) (p : Port) (s : State) :
    exec (.setfreqF p F) s = writeInc p (Config.nanInc s.stream s.draws) s.countDraw :=
  if_pos (decide_eq_true h)

theorem exec_setfreqF_of_finite {F : Word} (h : floatExponent F ≠ 255) (p : Port) (s : State) :
    exec (.setfreqF p F) s = writeInc p (floatInc s.cfg F) s :=
  if_neg (by simpa [floatIsSpecial] using h)

theorem exec_phinc (p : Port) (f : Word) (s : State) :
    exec (.phinc p f) s = .next (s.respond p (hertzInc s.cfg f)) := rfl

theorem exec_setinc (p : Port) (v : Word) (s : State) : exec (.setinc p v) s = writeInc p v s := rfl

/-- What an increment write stores and answers (41_frequency_control.md rule R101). -/
theorem writeInc_effect (p : Port) (v : Word) (s : State) :
    ∃ t, writeInc p v s = .next t ∧ t.phaseInc = v ∧ t.incSet = true ∧ t.phase = s.phase ∧
      (t.port p).responses = (s.port p).responses ++ [0] :=
  ⟨_, writeInc_eq p v s, by simp, by simp, by simp, by simp⟩

/-! ### Completion and refusal -/

theorem wellFormed_of_not_advances {i : Instr} (h : i.advances = false) : i.wellFormed = true := by
  cases i with
  | next p | phmod p m => cases h
  | _ => rfl

/-- A command completes exactly on a port that accepts it, and NEXT and PHMOD with an increment written (rule R130). -/
theorem exec_completes_iff {i : Instr} {s : State} :
    (∃ t, exec i s = .next t) ↔ i.wellFormed = true ∧ (i.advances = true → s.incSet = true) := by
  constructor
  · rintro ⟨t, ht⟩
    refine ⟨?_, fun ha => (exec_advances ht ha).2⟩
    cases ha : i.advances with
    | false => exact wellFormed_of_not_advances ha
    | true => exact wellFormed_of_port_P (exec_advances ht ha).1
  · rintro ⟨hwf, hset⟩
    cases i with
    | next p =>
      obtain rfl : p = .P := of_decide_eq_true hwf
      exact ⟨_, exec_next_of_set (hset rfl)⟩
    | phmod p m =>
      obtain rfl : p = .P := of_decide_eq_true hwf
      exact ⟨_, exec_phmod_of_set m (hset rfl)⟩
    | _ => exact exec_completes rfl

/-- A command that completes returns one response, on its own port (rule R32). -/
theorem exec_responds {i : Instr} {s t : State} (h : exec i s = .next t) :
    ∃ v, t.port i.port = (s.port i.port).responded v ∧ ∀ q, q ≠ i.port → t.port q = s.port q := by
  rcases exec_shape h with ⟨_, hP, _, v, rfl⟩ | ⟨_, _, v, s', rfl | ⟨rfl, _⟩, rfl⟩ | ⟨_, _, v, rfl⟩
  · exact ⟨v, by simp [hP], fun q hq => by simp [hP ▸ hq]⟩
  · exact ⟨0, by simp, fun q hq => by simp [hq]⟩
  · exact ⟨0, by simp, fun q hq => by simp [hq]⟩
  · exact ⟨v, by simp, fun q hq => by simp [hq]⟩

/-- Settles O36. -/
theorem acceptedCommandsCompleteWithOneResponse : Obligations.AcceptedCommandsCompleteWithOneResponse := by
  intro i s hwf hset
  obtain ⟨t, ht⟩ := exec_completes_iff.mpr ⟨hwf, hset⟩
  obtain ⟨v, hport, hother⟩ := exec_responds ht
  exact ⟨t, v, ht, hport, hother⟩

theorem andThen_eq_refused {o : Host.Outcome State Fault Refusal} {f : State → Host.Outcome State Fault Refusal}
    {r : Refusal} : andThen o f = .refused r ↔ o = .refused r ∨ ∃ s, o = .next s ∧ f s = .refused r := by
  cases o <;> simp

theorem advance_ne_refused (s : State) (r : Refusal) : advance s ≠ .refused r := by
  cases h : s.incSet with
  | false => simp [advance_of_unset h]
  | true => simp [advance_of_set h]

/-- What NEXT and PHMOD share, whichever cell `off` selects: only the port check can refuse. -/
theorem advanceAndRespond_eq_refused {p : Port} {off : State → Nat} {s : State} {r : Refusal} :
    (andThen (producerOnly p s) fun s => andThen (advance s) fun s => respondSample p (off s) s) = .refused r ↔
      r = .wrongPort ∧ p = .C := by
  cases p with
  | P => simp [andThen_eq_refused, advance_ne_refused]
  | C => simp [eq_comm]

theorem exec_next_eq_refused {p : Port} {s : State} {r : Refusal} :
    exec (.next p) s = .refused r ↔ r = .wrongPort ∧ p = .C :=
  advanceAndRespond_eq_refused

theorem exec_phmod_eq_refused {p : Port} {m : Word} {s : State} {r : Refusal} :
    exec (.phmod p m) s = .refused r ↔ r = .wrongPort ∧ p = .C :=
  advanceAndRespond_eq_refused

theorem exec_ne_refused_of_not_advances {i : Instr} (h : i.advances = false) (s : State) (r : Refusal) :
    exec i s ≠ .refused r := by
  obtain ⟨t, ht⟩ := exec_completes (s := s) h
  simp [ht]

theorem ne_P_iff {p : Port} : p ≠ .P ↔ p = .C := by
  cases p <;> decide

/-- Settles O38: NEXT and PHMOD by their port check; every other command completes and is well-formed. -/
theorem onlyTheWrongPortIsRefused : Obligations.OnlyTheWrongPortIsRefused := by
  intro i s r
  cases i with
  | next p => simp [exec_next_eq_refused, Instr.wellFormed, ← ne_P_iff]
  | phmod p m => simp [exec_phmod_eq_refused, Instr.wellFormed, ← ne_P_iff]
  | _ => exact iff_of_false (exec_ne_refused_of_not_advances rfl s r) (by simp [Instr.wellFormed])

/-- Settles O39, by induction on the list: INC_SET after the first command is the `set` that `readyFrom` goes
on with. -/
theorem readySequencesAreExactlyThoseThatComplete : Obligations.ReadySequencesAreExactlyThoseThatComplete := by
  intro l
  induction l with
  | nil => exact fun s => iff_of_true ⟨s, rfl⟩ rfl
  | cons i rest ih =>
    intro s
    have hready : readyFrom s.incSet (i :: rest) = true ↔
        (∃ t, exec i s = .next t) ∧ readyFrom (s.incSet || i.writesInc) rest = true := by
      rw [exec_completes_iff]
      cases hset : s.incSet <;> cases ha : i.advances <;> simp [readyFrom, ha]
    rw [hready]
    constructor
    · rintro ⟨u, hu⟩
      obtain ⟨t, ht, hrest⟩ := andThen_eq_next.mp hu
      exact ⟨⟨t, ht⟩, exec_incSet ht ▸ (ih t).mp ⟨u, hrest⟩⟩
    · rintro ⟨⟨t, ht⟩, hrest⟩
      obtain ⟨u, hu⟩ := (ih t).mpr (exec_incSet ht ▸ hrest)
      exact ⟨u, andThen_eq_next.mpr ⟨t, ht, hu⟩⟩

/-! ### Frames -/

theorem tableRead_of_cfg {s t : State} (h : t.cfg = s.cfg) (off : Nat) : tableRead t off = tableRead s off := by
  rw [tableRead, tableRead, h]

/-- A command leaves the word on its port where it is: the step that performs it has taken it already. -/
theorem exec_keeps_command {i : Instr} {s t : State} (h : exec i s = .next t) :
    (t.port i.port).command = (s.port i.port).command := by
  obtain ⟨v, hport, _⟩ := exec_responds h
  rw [hport, PortState.responded_command]

theorem exec_keeps_other_port {i : Instr} {s t : State} (h : exec i s = .next t) {q : Port} (hq : q ≠ i.port) :
    t.port q = s.port q := by
  obtain ⟨_, _, hother⟩ := exec_responds h
  exact hother q hq

/-- Only SETFREQ.F of a NaN or an infinity draws. -/
theorem exec_keeps_draws {i : Instr} {s t : State} (h : exec i s = .next t)
    (hfinite : ∀ F, i = .setfreqF i.port F → floatExponent F ≠ 255) : t.draws = s.draws := by
  rcases exec_shape h with ⟨_, _, _, v, rfl⟩ | ⟨_, _, v, s', rfl | ⟨_, F, hF, hspecial⟩, rfl⟩ | ⟨_, _, v, rfl⟩
  · simp
  · simp
  · exact absurd hspecial (hfinite F hF)
  · simp

theorem ne_setfreqF_of_not_writesInc {i : Instr} (h : i.writesInc = false) (p : Port) (F : Word) :
    i ≠ .setfreqF p F := by
  rintro rfl
  cases h

/-- Settles O40: NEXT and PHMOD complete on port P only. -/
theorem frameOfNextAndPhmod : Obligations.FrameOfNextAndPhmod := by
  intro i s t ha h
  have hP := (exec_advances h ha).1
  have hw := writesInc_of_advances ha
  refine ⟨exec_phaseInc h hw, by rw [exec_incSet h, hw, Bool.or_false], exec_keeps_cfg h,
    exec_keeps_other_port h (q := .C) (by simp [hP]), ?_, exec_keeps_host h,
    exec_keeps_draws h fun F hF => absurd hF (ne_setfreqF_of_not_writesInc hw _ F), exec_keeps_stream h,
    tableRead_of_cfg (exec_keeps_cfg h)⟩
  simpa [hP] using exec_keeps_command h

/-- Settles O41. -/
theorem frameOfAtindexAndPhinc : Obligations.FrameOfAtindexAndPhinc := by
  intro i s t ha hw h
  exact ⟨by rw [exec_phase h, ha]; rfl, exec_phaseInc h hw, by rw [exec_incSet h, hw, Bool.or_false],
    exec_keeps_cfg h, exec_keeps_host h,
    exec_keeps_draws h fun F hF => absurd hF (ne_setfreqF_of_not_writesInc hw _ F), exec_keeps_stream h,
    exec_keeps_command h, fun _ => exec_keeps_other_port h, tableRead_of_cfg (exec_keeps_cfg h)⟩

/-- Settles O42: no writer advances the phase. -/
theorem frameOfTheIncrementWriters : Obligations.FrameOfTheIncrementWriters := by
  intro i s t hw h
  exact ⟨by rw [exec_phase h, not_advances_of_writesInc hw]; rfl, exec_keeps_cfg h, exec_keeps_host h,
    exec_keeps_stream h, exec_keeps_command h, fun _ => exec_keeps_other_port h, tableRead_of_cfg (exec_keeps_cfg h),
    exec_keeps_draws h⟩

end Sys2Proof.Proofs
end

section
/-! What a command reads (10_state.md rules R23, R35; 20_memory.md rule R45): with other values in what it does not
read, it does the same. -/

namespace Sys2Proof.Proofs

open Sys2Proof Sys2Proof.Machine

/-- A command other than NEXT and PHMOD neither reads PHASE nor writes it. -/
theorem exec_setPhase {i : Instr} (h : i.advances = false) (s : State) (x : Word) :
    exec i (s.setPhase x) = andThen (exec i s) fun t => .next (t.setPhase x) := by
  cases i with
  | next p | phmod p m => cases h
  | setfreqF p F =>
    by_cases hF : floatExponent F = 255
    · cases p <;> simp only [exec_setfreqF_of_special hF] <;> rfl
    · cases p <;> simp only [exec_setfreqF_of_finite hF] <;> rfl
  | atindex p n | setfreqN8 p f | setfreqU p f | phinc p f | setinc p v => cases p <;> rfl

/-- Settles O46. -/
theorem phaseIsSeenOnlyThroughSamples : Obligations.PhaseIsSeenOnlyThroughSamples := by
  intro i s x h
  obtain ⟨t, ht⟩ := exec_completes (s := s) h
  exact ⟨t, ht, by rw [exec_setPhase h, ht, andThen_next]⟩

/-- PHASE_INC and INC_SET replaced, as no command does it: a writer always sets INC_SET. -/
def withIncrement (s : State) (x : Word) (b : Bool) : State := { s with phaseInc := x, incSet := b }

/-- A command other than NEXT and PHMOD reads neither PHASE_INC nor INC_SET, and a writer overwrites both. -/
theorem exec_withIncrement {i : Instr} (h : i.advances = false) (s : State) (x : Word) (b : Bool) :
    exec i (withIncrement s x b) =
      andThen (exec i s) fun t => .next (if i.writesInc then t else withIncrement t x b) := by
  cases i with
  | next p | phmod p m => cases h
  | setfreqF p F =>
    by_cases hF : floatExponent F = 255
    · cases p <;> simp only [exec_setfreqF_of_special hF] <;> rfl
    · cases p <;> simp only [exec_setfreqF_of_finite hF] <;> rfl
  | atindex p n | setfreqN8 p f | setfreqU p f | phinc p f | setinc p v => cases p <;> rfl

/-- Settles O47. -/
theorem theIncrementIsReadOnlyByNextAndPhmod : Obligations.TheIncrementIsReadOnlyByNextAndPhmod := by
  intro i s x b h
  obtain ⟨t, ht⟩ := exec_completes (s := s) h
  exact ⟨t, ht, (exec_withIncrement h s x b).trans (by rw [ht, andThen_next]; rfl)⟩

/-- The table replaced, `k` and `r` kept. -/
def withTable (s : State) (m : Memory) : State := { s with cfg := { s.cfg with table := m } }

theorem phaseIndex_lt (k : Nat) (p : Word) : phaseIndex k p < 2 ^ k := by
  rw [phaseIndex, Nat.and_two_pow_sub_one_eq_mod]
  exact Nat.mod_lt _ (Nat.two_pow_pos k)

theorem maskedIndex_lt (k : Nat) (i : Word) : maskedIndex k i < 2 ^ k := by
  rw [maskedIndex, Nat.and_two_pow_sub_one_eq_mod]
  exact Nat.mod_lt _ (Nat.two_pow_pos k)

/-- A sample read where two tables agree is the same sample. -/
theorem respondSample_withTable {p : Port} {off : Nat} {s : State} {m : Memory}
    (h : Memory.read m off = tableRead s off) :
    respondSample p off (withTable s m) = andThen (respondSample p off s) fun t => .next (withTable t m) := by
  have hread : tableRead (withTable s m) off = tableRead s off := h
  rw [respondSample_eq, hread]
  cases p <;> rfl

theorem writeInc_withTable (p : Port) (v : Word) (s : State) (m : Memory) :
    writeInc p v (withTable s m) = andThen (writeInc p v s) fun t => .next (withTable t m) := by
  cases p <;> rfl

/-- Every index a command computes is below `L`, so it sees the table there only. -/
theorem exec_withTable (i : Instr) (s : State) (m : Memory)
    (h : ∀ off, off < 2 ^ s.cfg.k → Memory.read m off = tableRead s off) :
    exec i (withTable s m) = andThen (exec i s) fun t => .next (withTable t m) := by
  cases i with
  | next p =>
    cases p with
    | C => rfl
    | P =>
      cases hset : s.incSet with
      | false => rw [exec_next_of_unset (s := withTable s m) hset, exec_next_of_unset hset, andThen_fault]
      | true =>
        rw [exec_next_of_set (s := withTable s m) hset, exec_next_of_set hset]
        exact respondSample_withTable (s := s.setPhase _) (h _ (phaseIndex_lt _ _))
  | phmod p n =>
    cases p with
    | C => rfl
    | P =>
      cases hset : s.incSet with
      | false => rw [exec_phmod_of_unset (s := withTable s m) n hset, exec_phmod_of_unset n hset, andThen_fault]
      | true =>
        rw [exec_phmod_of_set (s := withTable s m) n hset, exec_phmod_of_set n hset]
        exact respondSample_withTable (s := s.setPhase _) (h _ (phaseIndex_lt _ _))
  | atindex p n => exact respondSample_withTable (h _ (maskedIndex_lt _ _))
  | setfreqF p F =>
    by_cases hF : floatExponent F = 255
    · rw [exec_setfreqF_of_special hF, exec_setfreqF_of_special hF]
      exact writeInc_withTable p _ s.countDraw m
    · rw [exec_setfreqF_of_finite hF, exec_setfreqF_of_finite hF]
      exact writeInc_withTable p _ s m
  | setfreqN8 p f | setfreqU p f | setinc p v => exact writeInc_withTable p _ s m
  | phinc p f => cases p <;> rfl

/-- Settles O22. -/
theorem noCommandReadsOutsideTheTable : Obligations.NoCommandReadsOutsideTheTable := by
  intro i s t m hagree h
  exact (exec_withTable i s m hagree).trans (by rw [h, andThen_next]; rfl)

end Sys2Proof.Proofs
end

section
/-! The samples (40_sample_generation.md rules R80 to R86): the indices as remainders, and what NEXT, PHMOD and ATINDEX
do with them. -/

namespace Sys2Proof.Proofs

open Sys2Proof Sys2Proof.Machine

/-! ### Indices -/

theorem phaseIndex_eq_mod (k : Nat) (p : Word) : phaseIndex k p = p.toNat / 2 ^ 16 % 2 ^ k := by
  rw [phaseIndex_eq_div_and, Nat.and_two_pow_sub_one_eq_mod]

/-- Only the `16 + k` low bits of a phase select a cell. -/
theorem phaseIndex_eq_low_bits (k : Nat) (p : Word) : phaseIndex k p = p.toNat % 2 ^ (16 + k) / 2 ^ 16 := by
  rw [phaseIndex_eq_mod, pow_add, Nat.mod_mul_right_div_self]

theorem maskedIndex_eq_mod (k : Nat) (i : Word) : maskedIndex k i = i.toNat % 2 ^ k := by
  rw [maskedIndex, Nat.and_two_pow_sub_one_eq_mod]

/-- A signed factor modulo `2^32` is the factor's bits, so `m * L` is the operand shifted (rule R82). -/
theorem modulatedPhase_eq_add_shiftLeft (k : Nat) (phase m : Word) : modulatedPhase k phase m = phase + (m <<< k) := by
  have hpow : BitVec.ofInt 32 ((2 ^ k : Nat) : Int) = BitVec.twoPow 32 k := by
    rw [BitVec.ofInt_natCast]
    exact BitVec.eq_of_toNat_eq (by rw [BitVec.toNat_ofNat, BitVec.toNat_twoPow])
  rw [modulatedPhase, BitVec.ofInt_add, BitVec.ofInt_mul, BitVec.ofInt_toInt, hpow, BitVec.ofInt_natCast,
    BitVec.ofNat_toNat, BitVec.setWidth_eq, BitVec.shiftLeft_eq_mul_twoPow]

/-- Settles O19. -/
theorem modulationIsAShiftOfTheOperand : Obligations.ModulationIsAShiftOfTheOperand :=
  modulatedPhase_eq_add_shiftLeft

theorem modulatedPhase_toNat (k : Nat) (phase m : Word) :
    ((modulatedPhase k phase m).toNat : Int) = ((phase.toNat : Int) + m.toInt * 2 ^ k) % 2 ^ 32 := by
  rw [modulatedPhase, BitVec.toNat_ofInt, Int.toNat_of_nonneg (Int.emod_nonneg _ (by decide))]
  push_cast
  rfl

/-- The bits that select the cell see the fraction of the modulation only: its whole traversals lie above them. -/
theorem modulatedPhase_low_bits {k : Nat} (hk : k ≤ 16) (phase m : Word) :
    (modulatedPhase k phase m).toNat % 2 ^ (16 + k) = (phase.toNat + m.toNat % 2 ^ 16 * 2 ^ k) % 2 ^ (16 + k) := by
  have hdvd : 2 ^ (16 + k) ∣ 2 ^ 32 := pow_dvd_pow 2 (by omega)
  rw [modulatedPhase_eq_add_shiftLeft, BitVec.toNat_add, BitVec.toNat_shiftLeft, Nat.shiftLeft_eq, Nat.add_mod_mod,
    Nat.mod_mod_of_dvd _ hdvd, ← Nat.mul_mod_mul_right, ← pow_add, Nat.add_mod_mod]

theorem phaseIndex_modulatedPhase_add_traversals {k : Nat} (hk : k ≤ 16) (phase m n : Word) :
    phaseIndex k (modulatedPhase k phase (m + n * 0x00010000#32)) = phaseIndex k (modulatedPhase k phase m) := by
  have hfraction : (m + n * 0x00010000#32).toNat % 2 ^ 16 = m.toNat % 2 ^ 16 := by
    rw [BitVec.toNat_add, BitVec.toNat_mul, BitVec.toNat_ofNat]
    omega
  rw [phaseIndex_eq_low_bits, phaseIndex_eq_low_bits, modulatedPhase_low_bits hk, modulatedPhase_low_bits hk, hfraction]

/-- Rule R86: the operand's wrap at `2^32` is a multiple of `L`. -/
theorem maskedIndex_add_length {k : Nat} (hk : k ≤ 16) (i : Word) :
    maskedIndex k (BitVec.ofNat 32 (i.toNat + 2 ^ k)) = maskedIndex k i := by
  have hdvd : 2 ^ k ∣ 2 ^ 32 := pow_dvd_pow 2 (by omega)
  rw [maskedIndex_eq_mod, maskedIndex_eq_mod, BitVec.toNat_ofNat, Nat.mod_mod_of_dvd _ hdvd, Nat.add_mod_right]

theorem validConfig_iff {k r : Nat} : validConfig k r = true ↔ k ≤ 16 ∧ 1 ≤ r ∧ r ≤ 2 ^ 32 - 1 :=
  decide_eq_true_iff

theorem valid_iff {cfg : Configuration} : cfg.valid = true ↔ cfg.k ≤ 16 ∧ 1 ≤ cfg.r ∧ cfg.r ≤ 2 ^ 32 - 1 :=
  validConfig_iff

/-! ### The three sample commands -/

/-- A sample keeps its sign in the response (10_state.md rule R32). -/
theorem toInt_sample (b : Byte) : (b.signExtend 32).toInt = b.toInt :=
  BitVec.toInt_signExtend_of_le (by decide)

/-- Settles O13. -/
theorem nextAdvancesAndAnswersTheSample : Obligations.NextAdvancesAndAnswersTheSample := by
  intro s hset
  refine ⟨_, _, exec_next_of_set hset, BitVec.toNat_add _ _, rfl, ?_⟩
  rw [toInt_sample, State.respond_phase, State.setPhase_phase, phaseIndex_eq_mod,
    tableRead_of_cfg (State.setPhase_cfg s _)]

/-- Settles O14: the table's index is a natural number, the rule's an integer with the same value. -/
theorem phmodAdvancesAndAnswersTheModulatedSample : Obligations.PhmodAdvancesAndAnswersTheModulatedSample := by
  intro s m hset
  refine ⟨_, _, exec_phmod_of_set m hset, BitVec.toNat_add _ _, rfl, ?_⟩
  rw [toInt_sample, State.respond_phase, State.setPhase_phase, phaseIndex_eq_mod,
    tableRead_of_cfg (State.setPhase_cfg s _), ← modulatedPhase_toNat]
  norm_cast

/-- Settles O15. -/
theorem atindexAnswersTheMaskedCell : Obligations.AtindexAnswersTheMaskedCell := by
  intro p i s
  exact ⟨_, exec_atindex p i s, by rw [toInt_sample, maskedIndex_eq_mod]⟩

/-- Settles O18. -/
theorem atindexIsPeriodicInTheTableLength : Obligations.AtindexIsPeriodicInTheTableLength := by
  intro p i s hvalid
  rw [exec_atindex, exec_atindex, maskedIndex_add_length (valid_iff.mp hvalid).1]

/-- PHMOD sees its operand through the index alone. -/
theorem exec_phmod_congr {s : State} {m n : Word}
    (h : phaseIndex s.cfg.k (modulatedPhase s.cfg.k (s.phase + s.phaseInc) m) =
      phaseIndex s.cfg.k (modulatedPhase s.cfg.k (s.phase + s.phaseInc) n)) :
    exec (.phmod .P m) s = exec (.phmod .P n) s := by
  cases hset : s.incSet with
  | false => rw [exec_phmod_of_unset m hset, exec_phmod_of_unset n hset]
  | true => rw [exec_phmod_of_set m hset, exec_phmod_of_set n hset, h]

/-- Settles O20. -/
theorem wholeTraversalsDoNotMoveTheSample : Obligations.WholeTraversalsDoNotMoveTheSample := by
  intro m n s hvalid
  exact exec_phmod_congr (phaseIndex_modulatedPhase_add_traversals (valid_iff.mp hvalid).1 _ m n)

/-- Settles O16: with `m = 0` the modulated phase is the advanced phase. -/
theorem zeroModulationIsNext : Obligations.ZeroModulationIsNext := by
  intro s
  cases hset : s.incSet with
  | false => rw [exec_phmod_of_unset 0 hset, exec_next_of_unset hset]
  | true =>
    rw [exec_phmod_of_set 0 hset, exec_next_of_set hset, modulatedPhase_eq_add_shiftLeft, BitVec.ofNat_eq_ofNat,
      BitVec.zero_shiftLeft, BitVec.add_zero]

/-- Settles O17, by induction on the list: each command is one advance or none. -/
theorem phaseAdvancesLinearly : Obligations.PhaseAdvancesLinearly := by
  intro l
  induction l with
  | nil => exact fun s _ _ => ⟨s, rfl, rfl, by simp [Nat.mod_eq_of_lt s.phase.isLt]⟩
  | cons i rest ih =>
    intro s hset hl
    obtain ⟨⟨hwf, hw⟩, hrest⟩ := List.forall_mem_cons.mp hl
    obtain ⟨u, hu⟩ := exec_completes_iff.mpr ⟨hwf, fun _ => hset⟩
    obtain ⟨t, ht, hinc, hphase⟩ := ih u (by rw [exec_incSet hu, hset]; rfl) hrest
    rw [exec_phaseInc hu hw] at hinc hphase
    refine ⟨t, andThen_eq_next.mpr ⟨u, hu, ht⟩, hinc, ?_⟩
    rw [hphase, exec_phase hu]
    cases ha : i.advances with
    | false => rw [List.countP_cons_of_neg (by simp [ha]), if_neg Bool.false_ne_true]
    | true =>
      rw [List.countP_cons_of_pos ha, if_pos rfl, BitVec.toNat_add, Nat.mod_add_mod]
      ring_nf

end Sys2Proof.Proofs
end

section
/-! Construction (70_reset_and_hazards.md rules R150, R151): the host's cells of a whole table are read back. -/

namespace Sys2Proof.Proofs

open Sys2Proof Sys2Proof.Machine

theorem bind_concat (k : Nat) (cells : List Host.Cell) (c : Host.Cell) :
    Memory.bind k (cells ++ [c]) = Memory.bindCell k (Memory.bind k cells) c :=
  List.foldl_append

theorem read_bindCell_same {k off : Nat} {m : Memory} (b : Byte) (hoff : off < 2 ^ k) (hm : Memory.wf m) :
    Memory.read (Memory.bindCell k m (off, b)) off = b := by
  rw [Memory.bindCell, if_pos hoff, Memory.read_write_same m off b hm]

theorem read_bindCell_other {k off : Nat} {m : Memory} {c : Host.Cell} (hne : off ≠ c.1) (hm : Memory.wf m) :
    Memory.read (Memory.bindCell k m c) off = Memory.read m off := by
  unfold Memory.bindCell
  split
  · exact Memory.read_write_other m c.1 off c.2 hne hm
  · rfl

/-- The first `n` cells of a table, bound in the order of their offsets, read as given. -/
theorem read_bind_range {k : Nat} (T : Nat → Byte) {n off : Nat} (hn : n ≤ 2 ^ k) (hoff : off < n) :
    Memory.read (Memory.bind k ((List.range n).map fun off => (off, T off))) off = T off := by
  induction n with
  | zero => exact absurd hoff (Nat.not_lt_zero off)
  | succ n ih =>
    have hwf := Memory.bind_wf k ((List.range n).map fun off => (off, T off))
    rw [List.range_succ, List.map_append, List.map_singleton, bind_concat]
    by_cases hlast : off = n
    · subst hlast
      exact read_bindCell_same (T off) hn hwf
    · rw [read_bindCell_other hlast hwf]
      exact ih (by omega) (by omega)

theorem construct_of_invalid {k r : Nat} (h : ¬(k ≤ 16 ∧ 1 ≤ r ∧ r ≤ 2 ^ 32 - 1)) (cells : List Host.Cell) (s : State) :
    construct k r cells s = .refused .invalidConfiguration :=
  if_neg (mt validConfig_iff.mp h)

/-- With both ports idle the step is the host's (10_state.md rule R33). -/
theorem step_of_idle {s : State} (h : s.portsIdle = true) : step s = hostMove s := by
  obtain ⟨hP, hC⟩ := portsIdle_iff.mp h
  simp only [step, move, hP, hC]

theorem hostMove_of_nil {s : State} (h : s.host = []) : hostMove s = .next s := by
  simp only [hostMove, h]

theorem hostMove_of_present {s : State} {onP onC : Option CommandWord} {rest : List HostEvent}
    (h : s.host = .present onP onC :: rest) : hostMove s = .next ((s.setHost rest).present onP onC) := by
  simp only [hostMove, h]

theorem hostMove_of_construct {s : State} {k r : Nat} {cells : List Host.Cell} {rest : List HostEvent}
    (h : s.host = .construct k r cells :: rest) : hostMove s = construct k r cells (s.setHost rest) := by
  simp only [hostMove, h]

/-- Settles O48: the table by reading back its cells, the two faults by INC_SET = 0. -/
theorem constructionBindsTheConfiguration : Obligations.ConstructionBindsTheConfiguration := by
  intro s k r rest hidle
  refine ⟨fun cells hhost hinvalid => ?_, fun T hhost hk hr hr' => ?_⟩
  · rw [step_of_idle hidle, hostMove_of_construct hhost]
    exact construct_of_invalid (fun h => hinvalid ⟨Nat.zero_le k, h⟩) cells _
  · refine ⟨_, (step_of_idle hidle).trans ((hostMove_of_construct hhost).trans
      (construct_eq_next.mpr ⟨validConfig_iff.mpr ⟨hk, hr, hr'⟩, rfl⟩)), rfl, rfl, ?_, rfl, rfl, rfl, rfl, rfl,
      exec_next_of_unset rfl, fun m => exec_phmod_of_unset m rfl⟩
    exact fun off hoff => read_bind_range T le_rfl hoff

/-- An idle port presented a word, or nothing, holds just that. -/
theorem presented_of_idle {ps : PortState} (h : ps.command = none) (o : Option CommandWord) :
    ps.presented o = { command := o, responses := ps.responses } := by
  cases o with
  | none => rw [PortState.presented_none, ← h]
  | some w => rfl

/-- Settles O9: one clause for each of the host's moves. -/
theorem hostMovesWhenPortsAreIdle : Obligations.HostMovesWhenPortsAreIdle := by
  intro s hidle
  obtain ⟨hP, hC⟩ := portsIdle_iff.mp hidle
  rw [step_of_idle hidle]
  refine ⟨hostMove_of_nil, fun onP onC rest hhost => ?_, fun k r cells rest hhost => hostMove_of_construct hhost⟩
  rw [hostMove_of_present hhost, State.present, State.setHost_portP, State.setHost_portC, presented_of_idle hP,
    presented_of_idle hC]
  rfl

end Sys2Proof.Proofs
end

section
/-! Which commands the steps perform, and in which order (10_state.md rules R31, R33; 20_memory.md rules R47, R50, R51;
60_exceptions.md rule R135). -/

namespace Sys2Proof.Proofs

open Sys2Proof Sys2Proof.Machine

theorem perform_of_ok {p : Port} {w : CommandWord} {i : Instr} (h : decode p w = .ok i) (s : State) :
    perform p w s = exec i (s.takeCommand p) := by
  rw [perform, h]

/-- A word presented alone that decodes runs its command. -/
theorem step_of_decoded {s : State} {p q : Port} {w : CommandWord} {i : Instr} (hpq : p ≠ q)
    (hp : (s.port p).command = some w) (hq : (s.port q).command = none) (hi : decode p w = .ok i) :
    step s = exec i (s.takeCommand p) := by
  rw [step_eq_perform hpq hp hq, perform_of_ok hi]

/-- Settles O7. -/
theorem stepRunsThePresentedCommand : Obligations.StepRunsThePresentedCommand := by
  intro s p q w i hpq hp hq hi
  refine ⟨step_of_decoded hpq hp hq hi, ?_, State.takeCommand_port_other s p q hpq.symm, ?_⟩
  · rw [State.takeCommand_port]
    rfl
  · simp

/-- Settles O8: the word laid on port P is there alone, and taking it leaves both ports idle. -/
theorem fetchWordIsTheNextCommandRun : Obligations.FetchWordIsTheNextCommandRun := by
  intro i s hwf hP
  have hword : s.withFetchWord 40 (encode i).toNat = s.presentOnP (encode i) := by
    rw [State.withFetchWord, Nat.mod_eq_of_lt (encode i).isLt, BitVec.ofNat_toNat, BitVec.setWidth_eq]
  have hdecode := decode_encode hwf
  rw [hP] at hdecode
  rw [hword, step_of_decoded (p := .P) (q := .C) (by decide) rfl rfl hdecode]
  rfl

/-- A command performed where the other port's word waits is the first of two, and the step after it the second. -/
theorem exec_then_step {s : State} {p q : Port} {w : CommandWord} {i j : Instr} (hpq : p ≠ q) (hport : i.port = p)
    (hp : (s.port p).command = none) (hq : (s.port q).command = some w) (hj : decode q w = .ok j) :
    andThen (exec i s) (runSteps 1) = execAll [i, j] (s.takeCommand q) := by
  subst hport
  rw [execAll, exec_takeCommand i s q hpq.symm]
  cases h : exec i s with
  | fault r => rfl
  | refused r => rfl
  | next t =>
    have htp : (t.port i.port).command = none := (exec_keeps_command h).trans hp
    have htq : (t.port q).command = some w := by rw [exec_keeps_other_port h hpq.symm, hq]
    rw [andThen_next, andThen_next, andThen_next, runSteps, step_of_decoded hpq.symm htq htp hj]
    rfl

/-- Of two words presented at once the step performs the one on ORDER's port. -/
theorem step_of_both {s : State} {p q : Port} {w v : CommandWord} (hpq : p ≠ q)
    (horder : Config.order s.stream s.draws = p) (hp : (s.port p).command = some w)
    (hq : (s.port q).command = some v) : step s = perform p w s.countDraw := by
  cases p <;> cases q
  case P.P | C.C => exact absurd rfl hpq
  case P.C | C.P => simp only [State.port_P, State.port_C] at hp hq; simp only [step, move, hp, hq, horder]

/-- Two words presented at once: the one on ORDER's port is performed first, the other in the next step. -/
theorem runSteps_two_of_both {s : State} {p q : Port} {w v : CommandWord} {i j : Instr} (hpq : p ≠ q)
    (horder : Config.order s.stream s.draws = p) (hp : (s.port p).command = some w)
    (hq : (s.port q).command = some v) (hi : decode p w = .ok i) (hj : decode q v = .ok j) :
    runSteps 2 s = execAll [i, j] ((s.countDraw.takeCommand p).takeCommand q) := by
  rw [runSteps, step_of_both hpq horder hp hq, perform_of_ok hi]
  refine exec_then_step hpq (decode_eq_ok hi).2.1 ?_ ?_ hj
  · rw [State.takeCommand_port, PortState.taken_command]
  · rw [State.takeCommand_port_other _ _ _ hpq.symm, State.countDraw_port, hq]

theorem takeCommand_comm (s : State) : (s.takeCommand .C).takeCommand .P = (s.takeCommand .P).takeCommand .C := rfl

/-- Settles O10: ORDER chooses one of the two ports. -/
theorem simultaneousCommandsRunInOneOfTheTwoOrders : Obligations.SimultaneousCommandsRunInOneOfTheTwoOrders := by
  intro s wP wC iP iC hP hC hiP hiC
  cases horder : Config.order s.stream s.draws with
  | P => exact .inl (runSteps_two_of_both (q := .C) (by decide) horder hP hC hiP hiC)
  | C =>
    refine .inr ?_
    rw [← takeCommand_comm]
    exact runSteps_two_of_both (q := .P) (by decide) horder hC hP hiC hiP

/-- The increment a writer stores depends on the configuration and on the draw alone. -/
theorem exec_stores_same_increment {i : Instr} {s t s' t' : State} (hw : i.writesInc = true)
    (hcfg : s'.cfg = s.cfg) (hstream : s'.stream = s.stream) (hdraws : s'.draws = s.draws)
    (h : exec i s = .next t) (h' : exec i s' = .next t') : t'.phaseInc = t.phaseInc := by
  cases i with
  | next p | phmod p m | atindex p n | phinc p f => cases hw
  | setfreqN8 p f | setfreqU p f | setinc p v => cases h; cases h'; simp [hcfg]
  | setfreqF p F =>
    by_cases hF : floatExponent F = 255
    · rw [exec_setfreqF_of_special hF] at h h'
      cases h; cases h'; simp [hstream, hdraws]
    · rw [exec_setfreqF_of_finite hF] at h h'
      cases h; cases h'; simp [hcfg]

theorem execAll_pair {i j : Instr} {s a t : State} (hi : exec i s = .next a) (hj : exec j a = .next t) :
    execAll [i, j] s = .next t := by
  simp only [execAll, hi, hj, andThen_next]

/-- NEXT before a writer adds the old increment. -/
theorem execAll_next_writer {i : Instr} {s u s' : State} (hset : s'.incSet = true) (hw : i.writesInc = true)
    (hcfg : s'.cfg = s.cfg) (hstream : s'.stream = s.stream) (hdraws : s'.draws = s.draws)
    (hu : exec i s = .next u) :
    ∃ t, execAll [.next .P, i] s' = .next t ∧ t.phaseInc = u.phaseInc ∧ t.phase = s'.phase + s'.phaseInc := by
  have hnext := exec_next_of_set hset
  rw [respondSample_eq] at hnext
  obtain ⟨t, ht⟩ := exec_completes (not_advances_of_writesInc hw)
  refine ⟨t, execAll_pair hnext ht, exec_stores_same_increment hw ?_ ?_ ?_ hu ht, ?_⟩
  · simp [hcfg]
  · simp [hstream]
  · simp [hdraws]
  · simp [exec_phase ht, not_advances_of_writesInc hw]

/-- NEXT after a writer adds the new increment. -/
theorem execAll_writer_next {i : Instr} {s u s' : State} (hw : i.writesInc = true)
    (hcfg : s'.cfg = s.cfg) (hstream : s'.stream = s.stream) (hdraws : s'.draws = s.draws)
    (hu : exec i s = .next u) :
    ∃ t, execAll [i, .next .P] s' = .next t ∧ t.phaseInc = u.phaseInc ∧ t.phase = s'.phase + u.phaseInc := by
  obtain ⟨a, ha⟩ := exec_completes (s := s') (not_advances_of_writesInc hw)
  have hinc := exec_stores_same_increment hw hcfg hstream hdraws hu ha
  have hphase : a.phase = s'.phase := by simp [exec_phase ha, not_advances_of_writesInc hw]
  have hnext := exec_next_of_set (s := a) (by rw [exec_incSet ha, hw, Bool.or_true])
  rw [respondSample_eq] at hnext
  refine ⟨_, execAll_pair ha hnext, ?_, ?_⟩
  · simp [hinc]
  · simp [hinc, hphase]

/-- Settles O12: in the one order NEXT runs before the write, in the other after it. -/
theorem racingNextAddsOldOrNewIncrement : Obligations.RacingNextAddsOldOrNewIncrement := by
  intro s w i hset hP hC hi hw
  obtain ⟨u, hu⟩ := exec_completes (s := s.countDraw) (not_advances_of_writesInc hw)
  have hnext : decode .P (encode (.next .P)) = .ok (.next .P) := decode_encode (i := .next .P) rfl
  cases horder : Config.order s.stream s.draws with
  | P =>
    have hrun := runSteps_two_of_both (q := .C) (by decide) horder hP hC hnext hi
    obtain ⟨t, ht, hinc, hphase⟩ := execAll_next_writer (s := s.countDraw)
      (s' := (s.countDraw.takeCommand .P).takeCommand .C) (by simp [hset]) hw (by simp) (by simp) (by simp) hu
    exact ⟨t, u, hrun.trans ht, hu, hinc, .inl (by simpa using hphase)⟩
  | C =>
    have hrun := runSteps_two_of_both (q := .P) (by decide) horder hC hP hi hnext
    obtain ⟨t, ht, hinc, hphase⟩ := execAll_writer_next (s := s.countDraw)
      (s' := (s.countDraw.takeCommand .C).takeCommand .P) hw (by simp) (by simp) (by simp) hu
    exact ⟨t, u, hrun.trans ht, hu, hinc, .inr (by simpa using hphase)⟩

/-! ### A sequence of presentations -/

theorem taken_presented {ps : PortState} (h : ps.command = none) (w : CommandWord) :
    (ps.presented (some w)).taken = ps := by
  rw [presented_of_idle h, PortState.taken, ← h]

/-- A word presented on port P is taken again by the step that performs it. -/
theorem step_present_P {s : State} {w : CommandWord} {i : Instr} (hidle : s.portsIdle = true)
    (hi : decode .P w = .ok i) : step (s.present (some w) none) = exec i s := by
  obtain ⟨hP, hC⟩ := portsIdle_iff.mp hidle
  have htaken : (s.present (some w) none).takeCommand .P = s := by
    apply State.eq_of_fields <;> simp [taken_presented hP]
  rw [step_of_decoded (p := .P) (q := .C) (by decide) (by simp) (by simp [hC]) hi, htaken]

theorem step_present_C {s : State} {w : CommandWord} {i : Instr} (hidle : s.portsIdle = true)
    (hi : decode .C w = .ok i) : step (s.present none (some w)) = exec i s := by
  obtain ⟨hP, hC⟩ := portsIdle_iff.mp hidle
  have htaken : (s.present none (some w)).takeCommand .C = s := by
    apply State.eq_of_fields <;> simp [taken_presented hC]
  rw [step_of_decoded (p := .C) (q := .P) (by decide) (by simp) (by simp [hP]) hi, htaken]

theorem runSteps_two_of_step {s a : State} (h : step s = .next a) : runSteps 2 s = step a := by
  rw [runSteps, h, andThen_next, runSteps]
  cases step a <;> rfl

/-- A command presented by the host is performed in the block's next step, on the state the host found. -/
theorem runSteps_two_of_presentation {s : State} {i : Instr} {rest : List HostEvent} (hwf : i.wellFormed = true)
    (hidle : s.portsIdle = true) (hhost : s.host = presentation i :: rest) :
    runSteps 2 s = exec i (s.setHost rest) := by
  have hdecode := decode_encode hwf
  cases hport : i.port with
  | P =>
    have hpresent : s.host = .present (some (encode i)) none :: rest := by rw [hhost, presentation, hport]
    rw [runSteps_two_of_step ((step_of_idle hidle).trans (hostMove_of_present hpresent))]
    exact step_present_P (s := s.setHost rest) hidle (hport ▸ hdecode)
  | C =>
    have hpresent : s.host = .present none (some (encode i)) :: rest := by rw [hhost, presentation, hport]
    rw [runSteps_two_of_step ((step_of_idle hidle).trans (hostMove_of_present hpresent))]
    exact step_present_C (s := s.setHost rest) hidle (hport ▸ hdecode)

theorem andThen_assoc (o : Host.Outcome State Fault Refusal) (f g : State → Host.Outcome State Fault Refusal) :
    andThen (andThen o f) g = andThen o fun s => andThen (f s) g := by
  cases o <;> rfl

theorem runSteps_add (m n : Nat) (s : State) : runSteps (m + n) s = andThen (runSteps m s) (runSteps n) := by
  induction m generalizing s with
  | zero => rw [Nat.zero_add, runSteps, andThen_next]
  | succ m ih => simp only [Nat.succ_add, runSteps, andThen_assoc, ← ih]

theorem exec_keeps_idle {i : Instr} {s t : State} (h : exec i s = .next t) (hidle : s.portsIdle = true) :
    t.portsIdle = true := by
  have hcommand : ∀ q, (t.port q).command = (s.port q).command := fun q => by
    by_cases hq : q = i.port
    · rw [hq, exec_keeps_command h]
    · rw [exec_keeps_other_port h hq]
  obtain ⟨hP, hC⟩ := portsIdle_iff.mp hidle
  exact portsIdle_iff.mpr ⟨(hcommand .P).trans hP, (hcommand .C).trans hC⟩

/-- Settles O11, by induction on the list: two steps perform its first command and leave the ports idle for the rest. -/
theorem stepsPerformAnyPresentedSequence : Obligations.StepsPerformAnyPresentedSequence := by
  intro l
  induction l with
  | nil =>
    intro s rest _ _ hhost
    rw [List.map_nil, List.nil_append] at hhost
    rw [List.length_nil, Nat.mul_zero, runSteps, execAll, ← hhost]
    rfl
  | cons i l ih =>
    intro s rest hl hidle hhost
    obtain ⟨hwf, hrest⟩ := List.forall_mem_cons.mp hl
    rw [List.length_cons, Nat.mul_succ, Nat.add_comm, runSteps_add, execAll,
      runSteps_two_of_presentation hwf hidle hhost, exec_setHost, exec_setHost]
    cases h : exec i s with
    | fault r => rfl
    | refused r => rfl
    | next t => exact ih (t.setHost _) rest hrest (exec_keeps_idle (t := t) h hidle) rfl

end Sys2Proof.Proofs
end

section
/-! The frequency commands (41_frequency_control.md rules R100 to R112): the integer quotients, and SETFREQ.F's integer
computation against the rational that the rules write. -/

namespace Sys2Proof.Proofs

open Sys2Proof Sys2Proof.Machine

/-! ### The increment writers and PHINC -/

theorem hertzInc_toNat (cfg : Configuration) (f : Word) :
    (hertzInc cfg f).toNat = f.toNat * 2 ^ cfg.k * 2 ^ 16 / cfg.r % 2 ^ 32 :=
  BitVec.toNat_ofNat _ _

theorem q24n8Inc_toNat (cfg : Configuration) (f : Word) :
    (q24n8Inc cfg f).toNat = f.toNat * 2 ^ cfg.k * 2 ^ 8 / cfg.r % 2 ^ 32 :=
  BitVec.toNat_ofNat _ _

/-- Settles O23. -/
theorem setfreqN8StoresTheFlooredQuotient : Obligations.SetfreqN8StoresTheFlooredQuotient := by
  intro p f s
  obtain ⟨t, ht, hinc, hrest⟩ := writeInc_effect p (q24n8Inc s.cfg f) s
  exact ⟨t, ht, by rw [hinc, q24n8Inc_toNat], hrest⟩

/-- Settles O24. -/
theorem setfreqUStoresTheFlooredQuotient : Obligations.SetfreqUStoresTheFlooredQuotient := by
  intro p f s
  obtain ⟨t, ht, hinc, hrest⟩ := writeInc_effect p (hertzInc s.cfg f) s
  exact ⟨t, ht, by rw [hinc, hertzInc_toNat], hrest⟩

/-- Settles O26. -/
theorem setfreqFOfNanStoresSomeIncrement : Obligations.SetfreqFOfNanStoresSomeIncrement := by
  intro p F s hF
  exact ⟨Config.nanInc s.stream s.draws, exec_setfreqF_of_special hF p s⟩

/-- Settles O28. -/
theorem setincStoresTheValueGiven : Obligations.SetincStoresTheValueGiven :=
  exec_setinc

/-- Settles O27: the response is the increment that SETFREQ.U stores. -/
theorem phincAnswersWithoutStoring : Obligations.PhincAnswersWithoutStoring := by
  intro p f s
  refine ⟨hertzInc s.cfg f, exec_phinc p f s, hertzInc_toNat s.cfg f, ?_⟩
  rw [exec_setinc, exec_setfreqU]

/-- A whole number of Hz has no fraction to lose below `2^24`, so both setters divide the same numerator. -/
theorem q24n8Numerator_shiftLeft (k : Nat) {f : Word} (hf : f.toNat < 2 ^ 24) :
    q24n8Numerator k (f <<< 8) = hertzNumerator k f := by
  have hshift : (f <<< 8).toNat = f.toNat * 2 ^ 8 := by
    rw [BitVec.toNat_shiftLeft, Nat.shiftLeft_eq]
    omega
  rw [q24n8Numerator, hertzNumerator, hshift]
  ring

/-- Settles O29. -/
theorem wholeHertzAgreeInBothIntegerSetters : Obligations.WholeHertzAgreeInBothIntegerSetters := by
  intro p f s hf
  rw [exec_setfreqN8, exec_setfreqU, q24n8Inc, q24n8Numerator_shiftLeft _ hf, hertzInc]

theorem mul_length_le (f : Word) {k : Nat} (hk : k ≤ 16) : f.toNat * 2 ^ k ≤ (2 ^ 32 - 1) * 2 ^ 16 :=
  Nat.mul_le_mul (Nat.le_sub_one_of_lt f.isLt) (Nat.pow_le_pow_right (by decide) hk)

/-- Settles O30: 32 bits of frequency, 16 of table length and 16 of fraction. -/
theorem integerNumeratorsFitSixtyFourBits : Obligations.IntegerNumeratorsFitSixtyFourBits := by
  intro k f hk
  have hlength := mul_length_le f hk
  rw [hertzNumerator, q24n8Numerator]
  omega

/-- Settles O32: the thresholds by multiplying out, the commands as they are at any operand. -/
theorem overflowWrapsAtTheStatedThresholds : Obligations.OverflowWrapsAtTheStatedThresholds := by
  intro s hvalid p f
  have hr : 0 < s.cfg.r := (valid_iff.mp hvalid).2.1
  refine ⟨?_, ?_, exec_setfreqU p f s, exec_setfreqN8 p f s, exec_phinc p f s⟩ <;>
    rw [Nat.le_div_iff_mul_le hr] <;> omega

/-! ### binary32 -/

/-- `(-1)^s` of rule R105. -/
def signFactor (negative : Bool) : Rat := if negative then -1 else 1

@[simp] theorem signFactor_true : signFactor true = -1 := rfl
@[simp] theorem signFactor_false : signFactor false = 1 := rfl

/-- The value in the unit `2^-150` that the model computes in (rule R105). -/
theorem floatValue_eq (F : Word) :
    floatValue F = signFactor (floatSign F) * ((floatScaledMagnitude F : Rat) / 2 ^ 150) := by
  have hunit : (2 : Rat) ^ (-149 : Int) = 2 / 2 ^ 150 := by norm_num
  have hscale : (2 : Rat) ^ ((floatExponent F : Int) - 150) = 2 ^ floatExponent F / 2 ^ 150 := by
    rw [zpow_sub₀ two_ne_zero, zpow_natCast]
    norm_num
  rw [floatValue, floatScaledMagnitude, ← signFactor, hunit, hscale]
  split_ifs <;> push_cast <;> ring

theorem roundHalfAway_neg (y : Rat) : roundHalfAway (-y) = -roundHalfAway y := by
  rw [roundHalfAway_eq_sign_mul_floor, roundHalfAway_eq_sign_mul_floor, abs_neg, Rat.num_neg_eq_neg_num, Int.sign_neg,
    neg_mul]

theorem roundQuotient_eq_roundHalfAway (n : Nat) {d : Nat} (hd : 0 < d) :
    (roundQuotient n d : Int) = roundHalfAway ((n : Rat) / d) := by
  have hd' : (d : Rat) ≠ 0 := by positivity
  have hsum : (n : Rat) / d + 1 / 2 = ((2 * n + d : Nat) : Rat) / ((2 * d : Nat) : Rat) := by
    push_cast
    field_simp
  rw [roundHalfAway_of_nonneg (by positivity), abs_of_nonneg (by positivity), round_eq, hsum,
    Rat.floor_natCast_div_natCast, roundQuotient]
  norm_cast

/-- Rule R104's rounding of a finite frequency, computed in integers. -/
theorem floatRounded_eq {cfg : Configuration} (hr : 0 < cfg.r) (F : Word) :
    floatRounded cfg F = roundHalfAway (floatValue F * 2 ^ cfg.k * 2 ^ 16 / (cfg.r : Rat)) := by
  have hmagnitude : (floatMagnitude cfg F : Int) =
      roundHalfAway ((floatScaledMagnitude F : Rat) / 2 ^ 150 * 2 ^ cfg.k * 2 ^ 16 / cfg.r) := by
    rw [floatMagnitude, roundQuotient_eq_roundHalfAway _ (by positivity)]
    congr 1
    push_cast
    ring
  rw [floatRounded, floatValue_eq]
  cases floatSign F with
  | false => simp [hmagnitude]
  | true =>
    rw [if_pos rfl, hmagnitude, ← roundHalfAway_neg, signFactor_true]
    congr 1
    ring

theorem floatInc_toNat_eq_emod (cfg : Configuration) (F : Word) :
    ((floatInc cfg F).toNat : Int) = floatRounded cfg F % 2 ^ 32 := by
  rw [floatInc, BitVec.toNat_ofInt, Int.toNat_of_nonneg (Int.emod_nonneg _ (by decide))]
  rfl

/-- Settles O25. -/
theorem setfreqFStoresTheRoundedRational : Obligations.SetfreqFStoresTheRoundedRational := by
  intro p F s hF hvalid
  obtain ⟨t, ht, hinc, hrest⟩ := writeInc_effect p (floatInc s.cfg F) s
  refine ⟨t, (exec_setfreqF_of_finite hF p s).trans ht, ?_, hrest⟩
  rw [hinc, floatInc_toNat_eq_emod, floatRounded_eq (valid_iff.mp hvalid).2.1]

/-! ### How near the stored increment is (rule R111) -/

theorem natCast_div_sub_div (n d : Nat) : 0 ≤ (n : Rat) / d - (n / d : Nat) ∧ (n : Rat) / d - (n / d : Nat) < 1 := by
  have hfract : (n : Rat) / d - (n / d : Nat) = Int.fract ((n : Rat) / d) := by
    rw [← Int.self_sub_floor, Rat.floor_natCast_div_natCast]
    norm_cast
  rw [hfract]
  exact ⟨Int.fract_nonneg _, Int.fract_lt_one _⟩

theorem ratioInc_toNat {r n : Nat} (h : n / r < 2 ^ 32) : (ratioInc r n).toNat = n / r := by
  rw [ratioInc, BitVec.toNat_ofNat, Nat.mod_eq_of_lt h]

theorem floatInc_toNat {cfg : Configuration} {F : Word} (h : floatOverflows cfg F = false) :
    ((floatInc cfg F).toNat : Int) = floatRounded cfg F := by
  obtain ⟨hlow, hhigh⟩ := not_or.mp (of_decide_eq_false h)
  rw [floatInc_toNat_eq_emod]
  exact Int.emod_eq_of_lt (not_lt.mp hlow) (not_le.mp hhigh)

/-- Settles O31: floors for the two integer setters and PHINC, a rounding for SETFREQ.F. -/
theorem incrementsAreWithinOneUnit : Obligations.IncrementsAreWithinOneUnit := by
  intro cfg hvalid
  refine ⟨fun f hf => ?_, fun f hf => ?_, fun F _ _ hF => ?_⟩
  · have hnumerator : (f.toNat : Rat) * 2 ^ cfg.k * 2 ^ 16 = (hertzNumerator cfg.k f : Nat) := by
      rw [hertzNumerator]
      push_cast
      rfl
    rw [hnumerator, hertzInc, ratioInc_toNat (not_le.mp (of_decide_eq_false hf))]
    exact natCast_div_sub_div _ _
  · have hnumerator : (f.toNat : Rat) / 256 * 2 ^ cfg.k * 2 ^ 16 = (q24n8Numerator cfg.k f : Nat) := by
      rw [q24n8Numerator]
      push_cast
      ring
    rw [hnumerator, q24n8Inc, ratioInc_toNat (not_le.mp (of_decide_eq_false hf))]
    exact natCast_div_sub_div _ _
  · have hinc : ((floatInc cfg F).toNat : Rat) = (floatRounded cfg F : Int) := by
      rw [← floatInc_toNat hF]
      norm_cast
    rw [hinc, floatRounded_eq (valid_iff.mp hvalid).2.1, abs_sub_roundHalfAway]
    exact abs_sub_round _

/-! ### Subnormal and negated frequencies -/

/-- A quotient below one half rounds to 0. -/
theorem roundQuotient_eq_zero {n d : Nat} (h : 2 * n < d) : roundQuotient n d = 0 :=
  Nat.div_eq_of_lt (by omega)

/-- A subnormal is below `2^24` units of `2^-150`, far too little for any table length (90_conflicts.md C4). -/
theorem floatInc_eq_zero_of_subnormal {cfg : Configuration} {F : Word} (hF : floatExponent F = 0)
    (hvalid : cfg.valid = true) : floatInc cfg F = 0 := by
  obtain ⟨hk, hr, _⟩ := valid_iff.mp hvalid
  have hfraction : floatFraction F < 2 ^ 23 := (F.extractLsb' 0 23).isLt
  have hnumerator : floatFraction F * 2 * 2 ^ cfg.k ≤ 2 ^ 24 * 2 ^ 16 :=
    Nat.mul_le_mul (by omega) (Nat.pow_le_pow_right (by decide) hk)
  have hzero : floatMagnitude cfg F = 0 := by
    rw [floatMagnitude, floatScaledMagnitude, if_pos hF]
    exact roundQuotient_eq_zero (by omega)
  rw [floatInc, floatRounded, hzero]
  simp

/-- Settles O33. -/
theorem subnormalFrequenciesStoreZero : Obligations.SubnormalFrequenciesStoreZero := by
  intro p F s hF hvalid
  rw [exec_setfreqF_of_finite (by simp [hF]), floatInc_eq_zero_of_subnormal hF hvalid, writeInc_eq]

theorem floatSign_flip (F : Word) : floatSign (F ^^^ 0x80000000#32) = !floatSign F := by
  simp [floatSign]

theorem floatExponent_flip (F : Word) : floatExponent (F ^^^ 0x80000000#32) = floatExponent F := by
  simp [floatExponent, BitVec.extractLsb'_xor]

theorem floatFraction_flip (F : Word) : floatFraction (F ^^^ 0x80000000#32) = floatFraction F := by
  simp [floatFraction, BitVec.extractLsb'_xor]

/-- The sign bit alone negates the rounded frequency. -/
theorem floatInc_flip (cfg : Configuration) (F : Word) : floatInc cfg (F ^^^ 0x80000000#32) = -floatInc cfg F := by
  have hmagnitude : floatMagnitude cfg (F ^^^ 0x80000000#32) = floatMagnitude cfg F := by
    rw [floatMagnitude, floatMagnitude, floatScaledMagnitude, floatScaledMagnitude, floatExponent_flip,
      floatFraction_flip]
  have hrounded : floatRounded cfg (F ^^^ 0x80000000#32) = -floatRounded cfg F := by
    rw [floatRounded, floatRounded, floatSign_flip, hmagnitude]
    generalize floatMagnitude cfg F = n
    cases floatSign F <;> simp
  rw [floatInc, hrounded, BitVec.ofInt_neg, ← floatInc]

/-- Settles O34. -/
theorem negatedFrequencyStoresTheTwosComplement : Obligations.NegatedFrequencyStoresTheTwosComplement := by
  intro p F s hF
  refine ⟨_, _, exec_setfreqF_of_finite hF p s, exec_setfreqF_of_finite (by rwa [floatExponent_flip]) p s, ?_⟩
  simp [floatInc_flip]

end Sys2Proof.Proofs
end

section
/-! Several instances (60_exceptions.md rule R142; 41_frequency_control.md rule R108): a step of one sees and changes
its own state alone, on its own stream of free values. -/

namespace Sys2Proof.Proofs

open Sys2Proof Sys2Proof.Machine

/-- Settles O54. -/
theorem instancesShareNothing : Obligations.InstancesShareNothing := by
  intro l l' j n hstep hne
  rcases stepInstance_eq_some.mp hstep with ⟨_, rfl⟩ | ⟨s, t, _, _, rfl⟩
  · rfl
  · exact List.getElem?_set_ne hne.symm

/-- After a step in the list its position holds what that step answered. -/
theorem stepInstance_of_step {l : List State} {j : Nat} {s t : State} (hs : l[j]? = some s)
    (ht : step (s.onStream j) = .next t) : stepInstance l j = some (l.set j t) ∧ (l.set j t)[j]? = some t := by
  obtain ⟨hj, _⟩ := List.getElem?_eq_some_iff.mp hs
  exact ⟨stepInstance_eq_some.mpr (.inr ⟨s, t, hs, ht, rfl⟩), List.getElem?_set_self hj⟩

/-- Settles O55: the step reads the list at its own position only. -/
theorem instancesReadNothingOfEachOther : Obligations.InstancesReadNothingOfEachOther := by
  intro l m l' j hagree hstep
  rcases stepInstance_eq_some.mp hstep with ⟨hnone, rfl⟩ | ⟨s, t, hs, ht, rfl⟩
  · exact ⟨m, stepInstance_eq_some.mpr (.inl ⟨hagree ▸ hnone, rfl⟩), hagree.symm⟩
  · obtain ⟨hm, hmj⟩ := stepInstance_of_step (hagree ▸ hs) ht
    obtain ⟨_, hlj⟩ := stepInstance_of_step hs ht
    exact ⟨m.set j t, hm, hmj.trans hlj.symm⟩

/-- Settles O56: SETFREQ.F of a NaN or an infinity presented alone draws at the stream that is the position. -/
theorem instancesDrawFromTheirOwnStreams : Obligations.InstancesDrawFromTheirOwnStreams := by
  intro l s j p q F hs hpq hp hq hF
  have hstep : step (s.onStream j) = exec (.setfreqF p F) ((s.onStream j).takeCommand p) :=
    step_of_decoded hpq (by rw [State.onStream_port, hp]) (by rw [State.onStream_port, hq])
      (decode_encode (i := .setfreqF p F) rfl)
  rw [exec_setfreqF_of_special hF, writeInc_eq] at hstep
  obtain ⟨hl, hlj⟩ := stepInstance_of_step hs hstep
  exact ⟨_, _, hl, hlj, by simp, by simp, by simp, by simp⟩

end Sys2Proof.Proofs
end

section
/-! The assembler's float literal (30_encoding.md rule R66). Its significand is the quotient rounded to an integer on a
grid of spacing `2 ^ e`; in the units of `floatScaledMagnitude` every binary32 value above the grid's binade lies on the
grid, and every other one lies below a grid point that the literal itself does not lie below. -/

namespace Sys2Proof.Proofs

open Sys2Proof Sys2Proof.Machine

/-! ### A pattern's magnitude as a function of its low 31 bits -/

/-- The magnitude of the pattern whose bits without the sign are `b`, in units of `2^-150`. -/
def scaledOfBits (b : Nat) : Nat :=
  if b / 2 ^ 23 = 0 then b % 2 ^ 23 * 2 else (2 ^ 23 + b % 2 ^ 23) * 2 ^ (b / 2 ^ 23)

theorem floatExponent_eq (F : Word) : floatExponent F = F.toNat % 2 ^ 31 / 2 ^ 23 := by
  rw [floatExponent, BitVec.extractLsb'_toNat, Nat.shiftRight_eq_div_pow]
  omega

theorem floatFraction_eq (F : Word) : floatFraction F = F.toNat % 2 ^ 31 % 2 ^ 23 := by
  rw [floatFraction, BitVec.extractLsb'_toNat, Nat.shiftRight_eq_div_pow]
  omega

theorem floatScaledMagnitude_eq (F : Word) : floatScaledMagnitude F = scaledOfBits (F.toNat % 2 ^ 31) := by
  rw [floatScaledMagnitude, floatExponent_eq, floatFraction_eq, scaledOfBits]

theorem floatSign_eq (F : Word) : floatSign F = decide (2 ^ 31 ≤ F.toNat) := by
  rw [floatSign, ← BitVec.msb_eq_getLsbD_last, BitVec.msb_eq_decide]

/-- A significand `q` on the grid of exponent `e`, laid out as bits; one that has reached `2^24` carries into the
exponent, and one below `2^23` is a subnormal's. -/
theorem scaledOfBits_of_significand {e q : Nat} (he : 1 ≤ e) (hlow : e = 1 ∨ 2 ^ 23 ≤ q) (hhigh : q ≤ 2 ^ 24) :
    scaledOfBits (e * 2 ^ 23 + q - 2 ^ 23) = q * 2 ^ e := by
  rw [scaledOfBits]
  rcases Nat.lt_or_ge q (2 ^ 23) with hsub | hnormal
  · obtain rfl : e = 1 := hlow.resolve_right (Nat.not_le.mpr hsub)
    rw [if_pos (by omega), show (1 * 2 ^ 23 + q - 2 ^ 23) % 2 ^ 23 = q by omega, pow_one]
  · rcases Nat.lt_or_ge q (2 ^ 24) with hfit | hcarry
    · rw [if_neg (by omega), show (e * 2 ^ 23 + q - 2 ^ 23) / 2 ^ 23 = e by omega,
        show 2 ^ 23 + (e * 2 ^ 23 + q - 2 ^ 23) % 2 ^ 23 = q by omega]
    · obtain rfl : q = 2 ^ 24 := Nat.le_antisymm hhigh hcarry
      rw [if_neg (by omega), show (e * 2 ^ 23 + 2 ^ 24 - 2 ^ 23) / 2 ^ 23 = e + 1 by omega,
        show 2 ^ 23 + (e * 2 ^ 23 + 2 ^ 24 - 2 ^ 23) % 2 ^ 23 = 2 ^ 23 by omega, pow_succ]
      omega

/-- Every binary32 magnitude is on the grid of exponent `e` or below its binade. -/
theorem scaledOfBits_on_grid (b : Nat) {e : Nat} (he : 1 ≤ e) :
    2 ^ e ∣ scaledOfBits b ∨ (e ≠ 1 ∧ scaledOfBits b < 2 ^ 23 * 2 ^ e) := by
  have hfraction : b % 2 ^ 23 < 2 ^ 23 := Nat.mod_lt _ (by decide)
  rw [scaledOfBits]
  split
  · by_cases h1 : e = 1
    · exact .inl (by rw [h1, pow_one]; exact Nat.dvd_mul_left _ _)
    · refine .inr ⟨h1, Nat.mul_lt_mul_of_lt_of_le hfraction ?_ (Nat.two_pow_pos e)⟩
      exact Nat.le_self_pow (by omega) 2
  · rcases Nat.lt_or_ge (b / 2 ^ 23) e with hbelow | hge
    · refine .inr ⟨by omega, ?_⟩
      calc (2 ^ 23 + b % 2 ^ 23) * 2 ^ (b / 2 ^ 23)
          < (2 ^ 23 * 2) * 2 ^ (b / 2 ^ 23) := Nat.mul_lt_mul_of_pos_right (by omega) (Nat.two_pow_pos _)
        _ = 2 ^ 23 * 2 ^ (b / 2 ^ 23 + 1) := by rw [pow_succ]; ring
        _ ≤ 2 ^ 23 * 2 ^ e := Nat.mul_le_mul_left _ (Nat.pow_le_pow_right (by decide) hbelow)
    · exact .inl ((pow_dvd_pow 2 hge).mul_left _)

/-! ### The grid of a literal, and the rounding on it -/

theorem one_le_gridExponent (n d : Nat) : 1 ≤ gridExponent n d := Nat.le_max_left _ _

/-- The literal is below the top of its grid's binade. -/
theorem quotient_lt_of_gridExponent (n d : Nat) : n * 2 ^ 150 / d < 2 ^ 24 * 2 ^ gridExponent n d := by
  have hexp : (n * 2 ^ 150 / d).log2 + 1 ≤ 24 + gridExponent n d := by
    rw [gridExponent]
    omega
  rw [← pow_add]
  exact Nat.lt_log2_self.trans_le (Nat.pow_le_pow_right (by decide) hexp)

/-- Off the lowest grid the literal is not below the grid's binade. -/
theorem le_quotient_of_gridExponent {n d : Nat} (h : gridExponent n d ≠ 1) :
    2 ^ 23 * 2 ^ gridExponent n d ≤ n * 2 ^ 150 / d := by
  have hexp : 23 + gridExponent n d = (n * 2 ^ 150 / d).log2 := by
    rw [gridExponent] at h ⊢
    omega
  have hne : n * 2 ^ 150 / d ≠ 0 := fun h0 => h (by rw [gridExponent, h0]; rfl)
  rw [← pow_add, hexp]
  exact Nat.log2_self_le hne

theorem div_le_roundHalfEven (n d : Nat) : n / d ≤ roundHalfEven n d := by
  rw [roundHalfEven]
  split <;> omega

theorem roundHalfEven_le_div_add_one (n d : Nat) : roundHalfEven n d ≤ n / d + 1 := by
  rw [roundHalfEven]
  split <;> omega

/-- The rounded quotient is at most half a divisor off. -/
theorem two_mul_abs_roundHalfEven_sub_le (n : Nat) {d : Nat} (hd : 0 < d) :
    2 * |(roundHalfEven n d * d : Int) - n| ≤ d := by
  have hdiv : (d * (n / d : Nat) + (n % d : Nat) : Int) = n := mod_cast Nat.div_add_mod n d
  have hlt : n % d < d := Nat.mod_lt n hd
  rw [roundHalfEven]
  split
  case isTrue h =>
    have hup : ((n / d + 1 : Nat) * d : Int) - n = d - (n % d : Nat) := by
      rw [← hdiv]
      push_cast
      ring
    rw [hup, abs_of_nonneg (by omega)]
    omega
  case isFalse h =>
    have hdown : ((n / d : Nat) * d : Int) - n = -(n % d : Nat) := by
      rw [← hdiv]
      ring
    rw [hdown, abs_neg, abs_of_nonneg (by omega)]
    omega

/-- No multiple of the divisor is nearer than the rounded quotient's. -/
theorem abs_roundHalfEven_sub_le (n : Nat) {d : Nat} (hd : 0 < d) (j : Nat) :
    |(roundHalfEven n d * d : Int) - n| ≤ |(j * d : Int) - n| := by
  have hhalf := two_mul_abs_roundHalfEven_sub_le n hd
  rcases eq_or_ne j (roundHalfEven n d) with rfl | hne
  · exact le_rfl
  · have hone : (1 : Int) ≤ |(j : Int) - roundHalfEven n d| := Int.one_le_abs (by omega)
    have hapart : (d : Int) ≤ |(j * d : Int) - roundHalfEven n d * d| := by
      rw [← sub_mul, abs_mul, Nat.abs_cast]
      exact le_mul_of_one_le_left (by positivity) hone
    have htriangle := abs_sub_le (j * d : Int) n (roundHalfEven n d * d)
    rw [abs_sub_comm (n : Int)] at htriangle
    omega

/-- The significand a literal's quotient rounds to. -/
def significand (n d : Nat) : Nat := roundHalfEven (n * 2 ^ 150) (d * 2 ^ gridExponent n d)

theorem significand_le (n d : Nat) : significand n d ≤ 2 ^ 24 := by
  have hquotient : n * 2 ^ 150 / (d * 2 ^ gridExponent n d) < 2 ^ 24 := by
    rw [← Nat.div_div_eq_div_mul, Nat.div_lt_iff_lt_mul (Nat.two_pow_pos _)]
    exact quotient_lt_of_gridExponent n d
  exact (roundHalfEven_le_div_add_one _ _).trans hquotient

theorem le_significand {n d : Nat} (h : gridExponent n d ≠ 1) : 2 ^ 23 ≤ significand n d := by
  have hquotient : 2 ^ 23 ≤ n * 2 ^ 150 / (d * 2 ^ gridExponent n d) := by
    rw [← Nat.div_div_eq_div_mul, Nat.le_div_iff_mul_le (Nat.two_pow_pos _)]
    exact le_quotient_of_gridExponent h
  exact hquotient.trans (div_le_roundHalfEven _ _)

/-- The grid point of the significand is a nearest one to `n / d`, among the magnitudes of all patterns. -/
theorem abs_significand_sub_le (n b : Nat) {d : Nat} (hd : 0 < d) :
    |(significand n d * (d * 2 ^ gridExponent n d : Nat) : Int) - (n * 2 ^ 150 : Nat)| ≤
      |(scaledOfBits b * d : Int) - (n * 2 ^ 150 : Nat)| := by
  have hgrid : 0 < d * 2 ^ gridExponent n d := Nat.mul_pos hd (Nat.two_pow_pos _)
  have hnearest := abs_roundHalfEven_sub_le (n * 2 ^ 150) hgrid
  rcases scaledOfBits_on_grid b (one_le_gridExponent n d) with ⟨j, hj⟩ | ⟨h1, hbelow⟩
  · have hpoint : (scaledOfBits b * d : Int) = j * (d * 2 ^ gridExponent n d : Nat) := by
      rw [hj]
      push_cast
      ring
    rw [hpoint]
    exact hnearest j
  · refine (hnearest (2 ^ 23)).trans ?_
    have hpoint : 2 ^ 23 * (d * 2 ^ gridExponent n d) ≤ n * 2 ^ 150 := by
      rw [Nat.mul_left_comm, Nat.mul_comm]
      exact (Nat.le_div_iff_mul_le hd).mp (le_quotient_of_gridExponent h1)
    have hvalue : scaledOfBits b * d ≤ 2 ^ 23 * (d * 2 ^ gridExponent n d) := by
      rw [Nat.mul_left_comm, Nat.mul_comm d]
      exact Nat.mul_le_mul_right d hbelow.le
    have hpoint' : ((2 ^ 23 : Nat) * (d * 2 ^ gridExponent n d : Nat) : Int) ≤ (n * 2 ^ 150 : Nat) := mod_cast hpoint
    have hvalue' : (scaledOfBits b * d : Int) ≤ (2 ^ 23 : Nat) * (d * 2 ^ gridExponent n d : Nat) := mod_cast hvalue
    exact abs_le_abs_of_nonpos (sub_nonpos.mpr hpoint') (sub_le_sub_right hvalue' _)

theorem abs_div_two_pow_sub_div (a n : Nat) {d : Nat} (hd : 0 < d) :
    |(a : Rat) / 2 ^ 150 - n / d| = ((|(a * d : Int) - (n * 2 ^ 150 : Nat)| : Int) : Rat) / (2 ^ 150 * d) := by
  have hd' : (d : Rat) ≠ 0 := by positivity
  rw [div_sub_div (a : Rat) n (by positivity) hd', abs_div, abs_of_pos (show (0 : Rat) < 2 ^ 150 * d by positivity)]
  push_cast
  ring_nf

/-- The same over the rationals, in Hz. -/
theorem abs_significand_div_sub_le (n b : Nat) {d : Nat} (hd : 0 < d) :
    |((significand n d * 2 ^ gridExponent n d : Nat) : Rat) / 2 ^ 150 - n / d| ≤
      |(scaledOfBits b : Rat) / 2 ^ 150 - n / d| := by
  have hnearest := abs_significand_sub_le n b hd
  rw [Nat.cast_mul, mul_left_comm, mul_comm (d : Int), ← Nat.cast_mul] at hnearest
  rw [abs_div_two_pow_sub_div _ _ hd, abs_div_two_pow_sub_div _ _ hd]
  gcongr

/-! ### The literal's pattern -/

/-- The digits and the power of ten as the quotient that `floatLiteral` rounds. -/
theorem literal_eq_div (digits : Nat) (exp10 : Int) :
    (digits : Rat) * 10 ^ exp10 = ((digits * 10 ^ exp10.toNat : Nat) : Rat) / ((10 ^ (-exp10).toNat : Nat) : Rat) := by
  have hzpow : (10 : Rat) ^ exp10 = 10 ^ exp10.toNat / 10 ^ (-exp10).toNat := by
    rw [← zpow_natCast, ← zpow_natCast, ← zpow_sub₀ (by norm_num), Int.toNat_sub_toNat_neg]
  rw [hzpow, ← mul_div_assoc]
  push_cast
  rfl

theorem nearestMagnitude_lt (n d : Nat) : nearestMagnitude n d < 2 ^ 31 :=
  (Nat.min_le_right _ _).trans_lt (by decide)

theorem floatLiteral_toNat (negative : Bool) (digits : Nat) (exp10 : Int) :
    (floatLiteral negative digits exp10).toNat =
      if negative then 2 ^ 31 + nearestMagnitude (digits * 10 ^ exp10.toNat) (10 ^ (-exp10).toNat)
      else nearestMagnitude (digits * 10 ^ exp10.toNat) (10 ^ (-exp10).toNat) := by
  have hlt := nearestMagnitude_lt (digits * 10 ^ exp10.toNat) (10 ^ (-exp10).toNat)
  rw [floatLiteral, BitVec.toNat_ofNat]
  apply Nat.mod_eq_of_lt
  split <;> omega

theorem floatLiteral_magnitude_bits (negative : Bool) (digits : Nat) (exp10 : Int) :
    (floatLiteral negative digits exp10).toNat % 2 ^ 31 =
      nearestMagnitude (digits * 10 ^ exp10.toNat) (10 ^ (-exp10).toNat) := by
  have hlt := nearestMagnitude_lt (digits * 10 ^ exp10.toNat) (10 ^ (-exp10).toNat)
  rw [floatLiteral_toNat]
  split <;> omega

theorem floatSign_floatLiteral (negative : Bool) (digits : Nat) (exp10 : Int) :
    floatSign (floatLiteral negative digits exp10) = negative := by
  have hlt := nearestMagnitude_lt (digits * 10 ^ exp10.toNat) (10 ^ (-exp10).toNat)
  rw [floatSign_eq, floatLiteral_toNat]
  cases negative with
  | false => exact decide_eq_false (by simpa using hlt)
  | true => exact decide_eq_true (Nat.le_add_right _ _)

/-- Below the infinity the bits are the significand's on its grid. -/
theorem scaledOfBits_nearestMagnitude {n d : Nat} (h : nearestMagnitude n d / 2 ^ 23 ≠ 255) :
    scaledOfBits (nearestMagnitude n d) = significand n d * 2 ^ gridExponent n d := by
  have hbits : nearestMagnitude n d = gridExponent n d * 2 ^ 23 + significand n d - 2 ^ 23 := by
    rw [nearestMagnitude] at h ⊢
    rw [significand]
    omega
  have hlow : gridExponent n d = 1 ∨ 2 ^ 23 ≤ significand n d := or_iff_not_imp_left.mpr le_significand
  rw [hbits, scaledOfBits_of_significand (one_le_gridExponent n d) hlow (significand_le n d)]

theorem abs_signFactor (s : Bool) : |signFactor s| = 1 := by
  cases s <;> simp

theorem signFactor_of_ne {s t : Bool} (h : s ≠ t) : signFactor t = -signFactor s := by
  obtain rfl : t = !s := Bool.eq_not.mpr h.symm
  cases s <;> simp

theorem abs_signFactor_mul_sub (a x : Rat) (s : Bool) : |signFactor s * a - signFactor s * x| = |a - x| := by
  rw [← mul_sub, abs_mul, abs_signFactor, one_mul]

/-- Of two magnitudes, equal signs keep the distance and opposite ones only widen it. -/
theorem abs_sub_le_abs_signFactor_mul_sub {a x : Rat} (ha : 0 ≤ a) (hx : 0 ≤ x) (s t : Bool) :
    |a - x| ≤ |signFactor s * a - signFactor t * x| := by
  rcases eq_or_ne s t with rfl | hne
  · rw [abs_signFactor_mul_sub]
  · rw [signFactor_of_ne hne, neg_mul, sub_neg_eq_add, ← mul_add, abs_mul, abs_signFactor, one_mul,
      abs_of_nonneg (add_nonneg ha hx)]
    exact abs_le.mpr ⟨by linarith, by linarith⟩

/-- Settles O53: the literal's significand is nearest on its grid, and no pattern off the grid comes nearer. -/
theorem floatLiteralIsNearest : Obligations.FloatLiteralIsNearest := by
  intro negative digits exp10 F hfinite _
  have hd : 0 < 10 ^ (-exp10).toNat := by positivity
  rw [floatExponent_eq, floatLiteral_magnitude_bits] at hfinite
  rw [← signFactor, mul_assoc, literal_eq_div, floatValue_eq, floatValue_eq, floatSign_floatLiteral,
    floatScaledMagnitude_eq, floatScaledMagnitude_eq F, floatLiteral_magnitude_bits,
    scaledOfBits_nearestMagnitude hfinite, abs_signFactor_mul_sub]
  exact (abs_significand_div_sub_le _ _ hd).trans
    (abs_sub_le_abs_signFactor_mul_sub (by positivity) (by positivity) _ _)

end Sys2Proof.Proofs
end
